-- ==== Sys2Proof/Word.lean ====
section
/-! DEFINITION. The machine's word types: what spec/00_scope.md R6 and R9 to R11 treat as bits, and the four-bit
indices that name registers, keys and sprite heights. -/

namespace Sys2Proof

/-- An 8-bit value: a general register, a timer, a memory byte, an immediate `kk` (00 R6). -/
abbrev Byte := BitVec 8

/-- A 16-bit value: an instruction word, `I`, `pc`, a stack slot (00 R6). -/
abbrev Word := BitVec 16

/-- A 12-bit immediate address `nnn` (30 R76). -/
abbrev Addr12 := BitVec 12

/-- A 4-bit field used as a number or an index: `x`, `y`, `n`, a key, a register (30 R76, 10 R20, R39). -/
abbrev Nibble := Fin 16

end Sys2Proof
end

