-- ==== Sys2Proof/Syntax.lean ====
section
/-! DEFINITION. The 35 instructions (spec/30_encoding.md R78), one constructor for each row of spec/opcode_table.json, in
the table's order. Operands are the fields of R76; register fields are `Nibble`s, so every one of the 16 registers may be
named (10 R20). The shifts keep their ignored `y` and SYS its ignored `nnn`, so that a word and its instruction carry the
same bits. -/

namespace Sys2Proof

inductive Instr where
  /-- 00E0 CLS (44 R190) -/
  | cls
  /-- 00EE RET (41 R120) -/
  | ret
  /-- 0nnn SYS addr (41 R121) -/
  | sys (nnn : Addr12)
  /-- 1nnn JP addr (41 R122) -/
  | jp (nnn : Addr12)
  /-- 2nnn CALL addr (41 R123) -/
  | call (nnn : Addr12)
  /-- 3xkk SE Vx, byte (41 R125) -/
  | seByte (x : Nibble) (kk : Byte)
  /-- 4xkk SNE Vx, byte (41 R126) -/
  | sneByte (x : Nibble) (kk : Byte)
  /-- 5xy0 SE Vx, Vy (41 R127) -/
  | seReg (x y : Nibble)
  /-- 6xkk LD Vx, byte (42 R140) -/
  | ldByte (x : Nibble) (kk : Byte)
  /-- 7xkk ADD Vx, byte (42 R141) -/
  | addByte (x : Nibble) (kk : Byte)
  /-- 8xy0 LD Vx, Vy (42 R142) -/
  | ldReg (x y : Nibble)
  /-- 8xy1 OR Vx, Vy (42 R143) -/
  | orReg (x y : Nibble)
  /-- 8xy2 AND Vx, Vy (42 R144) -/
  | andReg (x y : Nibble)
  /-- 8xy3 XOR Vx, Vy (42 R145) -/
  | xorReg (x y : Nibble)
  /-- 8xy4 ADD Vx, Vy (42 R146) -/
  | addReg (x y : Nibble)
  /-- 8xy5 SUB Vx, Vy (42 R147) -/
  | sub (x y : Nibble)
  /-- 8xy6 SHR Vx, where `y` is ignored (42 R148) -/
  | shr (x y : Nibble)
  /-- 8xy7 SUBN Vx, Vy (42 R149) -/
  | subn (x y : Nibble)
  /-- 8xyE SHL Vx, where `y` is ignored (42 R150) -/
  | shl (x y : Nibble)
  /-- 9xy0 SNE Vx, Vy (41 R128) -/
  | sneReg (x y : Nibble)
  /-- Annn LD I, addr (43 R170) -/
  | ldI (nnn : Addr12)
  /-- Bnnn JP V0, addr (41 R129) -/
  | jpV0 (nnn : Addr12)
  /-- Cxkk RND Vx, byte (42 R151) -/
  | rnd (x : Nibble) (kk : Byte)
  /-- Dxyn DRW Vx, Vy, nibble (44 R191) -/
  | drw (x y n : Nibble)
  /-- Ex9E SKP Vx (44 R192) -/
  | skp (x : Nibble)
  /-- ExA1 SKNP Vx (44 R193) -/
  | sknp (x : Nibble)
  /-- Fx07 LD Vx, DT (44 R194) -/
  | ldVxDt (x : Nibble)
  /-- Fx0A LD Vx, K (44 R195) -/
  | ldVxK (x : Nibble)
  /-- Fx15 LD DT, Vx (44 R196) -/
  | ldDtVx (x : Nibble)
  /-- Fx18 LD ST, Vx (44 R197) -/
  | ldStVx (x : Nibble)
  /-- Fx1E ADD I, Vx (43 R171) -/
  | addIVx (x : Nibble)
  /-- Fx29 LD F, Vx (43 R172) -/
  | ldFVx (x : Nibble)
  /-- Fx33 LD B, Vx (43 R173) -/
  | ldBVx (x : Nibble)
  /-- Fx55 LD [I], Vx (43 R174) -/
  | ldMemVx (x : Nibble)
  /-- Fx65 LD Vx, [I] (43 R175) -/
  | ldVxMem (x : Nibble)
deriving DecidableEq, Repr

end Sys2Proof
end

