-- ==== Sys2Proof/WellFormed.lean ====
section
/-! DEFINITION. Which terms of `Instr` stand for a word. The operand types hold every bound of 30 R76; the one check left
is the precedence of 30 R80: SYS is every family-0 word EXCEPT 00E0 (CLS) and 00EE (RET), the `exclude` list of its row. -/

namespace Sys2Proof

/-- SYS's address is neither of the two words that the exact patterns take (30 R80). -/
def sysAddrOk (nnn : Addr12) : Bool := nnn != 0x0E0#12 && nnn != 0x0EE#12

/-- The well-formed instructions: those some word decodes to. -/
def Instr.wf : Instr → Bool
  | .sys nnn => sysAddrOk nnn
  | .cls | .ret | .jp _ | .call _ | .seByte _ _ | .sneByte _ _ | .seReg _ _ | .ldByte _ _ | .addByte _ _
  | .ldReg _ _ | .orReg _ _ | .andReg _ _ | .xorReg _ _ | .addReg _ _ | .sub _ _ | .shr _ _ | .subn _ _ | .shl _ _
  | .sneReg _ _ | .ldI _ | .jpV0 _ | .rnd _ _ | .drw _ _ _ | .skp _ | .sknp _ | .ldVxDt _ | .ldVxK _ | .ldDtVx _
  | .ldStVx _ | .addIVx _ | .ldFVx _ | .ldBVx _ | .ldMemVx _ | .ldVxMem _ => true

end Sys2Proof
end

