-- ==== Sys2Proof/Decode.lean ====
section
/-! DEFINITION. From bytes to instructions and back (spec/30_encoding.md). `decode` is the pure two-level decoder of R79 and
R87; `decodeBytes` puts the big-endian fetch order of 20 R57 before it; `encode` writes an instruction's word from the
formats of R76. -/

namespace Sys2Proof

/-! ## Bytes and fields -/

/-- `hi ++ lo = hi * 256 + lo` (00 R10): the word a fetch builds, high byte at the lower address (20 R57). -/
def joinBytes (hi lo : Byte) : Word := BitVec.ofNat 16 (hi.toNat * 256 + lo.toNat)

/-- `w[15:8]`, the byte at the lower address. -/
def hiByte (w : Word) : Byte := BitVec.ofNat 8 (w.toNat / 256)

/-- `w[7:0]`, the byte at the higher address. -/
def loByte (w : Word) : Byte := BitVec.ofNat 8 w.toNat

/-- N1 = `w[15:12]`, the opcode family (00 R9). -/
def family (w : Word) : Nat := w.toNat / 4096

/-- x = `w[11:8]` (30 R76). -/
def fieldX (w : Word) : Nibble := ⟨w.toNat / 256 % 16, Nat.mod_lt _ (by decide)⟩

/-- y = `w[7:4]` (30 R76). -/
def fieldY (w : Word) : Nibble := ⟨w.toNat / 16 % 16, Nat.mod_lt _ (by decide)⟩

/-- n = N4 = `w[3:0]` (30 R76). -/
def fieldN (w : Word) : Nibble := ⟨w.toNat % 16, Nat.mod_lt _ (by decide)⟩

/-- kk = `w[7:0]` (30 R76). -/
def fieldKk (w : Word) : Byte := BitVec.ofNat 8 w.toNat

/-- nnn = `w[11:0]` (30 R76). -/
def fieldNnn (w : Word) : Addr12 := BitVec.ofNat 12 w.toNat

/-! ## The two-level decoder -/

/-- Family 0: the whole word decides, the two exact patterns first (30 R80). -/
def decodeFamily0 (w : Word) : Instr :=
  if w = 0x00E0#16 then .cls
  else if w = 0x00EE#16 then .ret
  else .sys (fieldNnn w)

/-- Family 8: N4 decides among nine instructions (30 R83). -/
def decodeFamily8 (w : Word) : Option Instr :=
  match (fieldN w).val with
  | 0x0 => some (.ldReg (fieldX w) (fieldY w))
  | 0x1 => some (.orReg (fieldX w) (fieldY w))
  | 0x2 => some (.andReg (fieldX w) (fieldY w))
  | 0x3 => some (.xorReg (fieldX w) (fieldY w))
  | 0x4 => some (.addReg (fieldX w) (fieldY w))
  | 0x5 => some (.sub (fieldX w) (fieldY w))
  | 0x6 => some (.shr (fieldX w) (fieldY w))
  | 0x7 => some (.subn (fieldX w) (fieldY w))
  | 0xE => some (.shl (fieldX w) (fieldY w))
  | _ => none

/-- Family E: the low byte decides between two instructions (30 R84). -/
def decodeFamilyE (w : Word) : Option Instr :=
  if fieldKk w = 0x9E#8 then some (.skp (fieldX w))
  else if fieldKk w = 0xA1#8 then some (.sknp (fieldX w))
  else none

/-- Family F: the low byte decides among nine instructions (30 R85). -/
def decodeFamilyF (w : Word) : Option Instr :=
  if fieldKk w = 0x07#8 then some (.ldVxDt (fieldX w))
  else if fieldKk w = 0x0A#8 then some (.ldVxK (fieldX w))
  else if fieldKk w = 0x15#8 then some (.ldDtVx (fieldX w))
  else if fieldKk w = 0x18#8 then some (.ldStVx (fieldX w))
  else if fieldKk w = 0x1E#8 then some (.addIVx (fieldX w))
  else if fieldKk w = 0x29#8 then some (.ldFVx (fieldX w))
  else if fieldKk w = 0x33#8 then some (.ldBVx (fieldX w))
  else if fieldKk w = 0x55#8 then some (.ldMemVx (fieldX w))
  else if fieldKk w = 0x65#8 then some (.ldVxMem (fieldX w))
  else none

/-- The decoder of 30 R87: total and pure, `none` is the verdict Unknown. The first level is N1 (R79); families 5 and 9
need N4 = 0 (R82). -/
def decode (w : Word) : Option Instr :=
  match family w with
  | 0x0 => some (decodeFamily0 w)
  | 0x1 => some (.jp (fieldNnn w))
  | 0x2 => some (.call (fieldNnn w))
  | 0x3 => some (.seByte (fieldX w) (fieldKk w))
  | 0x4 => some (.sneByte (fieldX w) (fieldKk w))
  | 0x5 => if (fieldN w).val = 0 then some (.seReg (fieldX w) (fieldY w)) else none
  | 0x6 => some (.ldByte (fieldX w) (fieldKk w))
  | 0x7 => some (.addByte (fieldX w) (fieldKk w))
  | 0x8 => decodeFamily8 w
  | 0x9 => if (fieldN w).val = 0 then some (.sneReg (fieldX w) (fieldY w)) else none
  | 0xA => some (.ldI (fieldNnn w))
  | 0xB => some (.jpV0 (fieldNnn w))
  | 0xC => some (.rnd (fieldX w) (fieldKk w))
  | 0xD => some (.drw (fieldX w) (fieldY w) (fieldN w))
  | 0xE => decodeFamilyE w
  | 0xF => decodeFamilyF w
  | _ => none

/-- Why a list of bytes gives no instruction. -/
inductive DecodeError where
  /-- Fewer than two bytes: an instruction is always two (30 R75). -/
  | truncated
  /-- The word matches no pattern (30 R86). -/
  | unknown (w : Word)
deriving DecidableEq, Repr

/-- Decoding on any bytes: the instruction and the bytes after it, or the reason there is none. -/
def decodeBytes : List Byte → Except DecodeError (Instr × List Byte)
  | hi :: lo :: rest =>
    match decode (joinBytes hi lo) with
    | some i => .ok (i, rest)
    | none => .error (.unknown (joinBytes hi lo))
  | _ => .error .truncated

/-- The bytes of a word as memory holds them, the high byte first (20 R57). -/
def wordBytes (w : Word) : List Byte := [hiByte w, loByte w]

/-- The word whose bits, numbered as spec/opcode_table.json numbers them, are `w`; bits at and above `nbits` are 0. -/
def tableWord (nbits w : Nat) : Word := BitVec.ofNat 16 (w % 2 ^ nbits)

/-- What the decoder reads from an instruction whose bits are `w`, laid out in memory order. -/
def decodeTableWord (nbits w : Nat) : Option Instr :=
  match decodeBytes (wordBytes (tableWord nbits w)) with
  | .ok (i, _) => some i
  | .error _ => none

/-! ## The encoder, from the formats of 30 R76 and the patterns of 30 R78 -/

/-- F-NNN: `ffff nnnn nnnn nnnn`. -/
def encNNN (f : Nat) (nnn : Addr12) : Word := BitVec.ofNat 16 (f * 4096 + nnn.toNat)

/-- F-XKK: `ffff xxxx kkkk kkkk`. F-XOP is the same layout with a fixed low byte. -/
def encXKK (f : Nat) (x : Nibble) (kk : Byte) : Word := BitVec.ofNat 16 (f * 4096 + x.val * 256 + kk.toNat)

/-- F-XYN: `ffff xxxx yyyy nnnn`. -/
def encXYN (f : Nat) (x y n : Nibble) : Word := BitVec.ofNat 16 (f * 4096 + x.val * 256 + y.val * 16 + n.val)

/-- The word of an instruction. -/
def encode : Instr → Word
  | .cls => 0x00E0#16
  | .ret => 0x00EE#16
  | .sys nnn => encNNN 0x0 nnn
  | .jp nnn => encNNN 0x1 nnn
  | .call nnn => encNNN 0x2 nnn
  | .seByte x kk => encXKK 0x3 x kk
  | .sneByte x kk => encXKK 0x4 x kk
  | .seReg x y => encXYN 0x5 x y 0
  | .ldByte x kk => encXKK 0x6 x kk
  | .addByte x kk => encXKK 0x7 x kk
  | .ldReg x y => encXYN 0x8 x y 0x0
  | .orReg x y => encXYN 0x8 x y 0x1
  | .andReg x y => encXYN 0x8 x y 0x2
  | .xorReg x y => encXYN 0x8 x y 0x3
  | .addReg x y => encXYN 0x8 x y 0x4
  | .sub x y => encXYN 0x8 x y 0x5
  | .shr x y => encXYN 0x8 x y 0x6
  | .subn x y => encXYN 0x8 x y 0x7
  | .shl x y => encXYN 0x8 x y 0xE
  | .sneReg x y => encXYN 0x9 x y 0
  | .ldI nnn => encNNN 0xA nnn
  | .jpV0 nnn => encNNN 0xB nnn
  | .rnd x kk => encXKK 0xC x kk
  | .drw x y n => encXYN 0xD x y n
  | .skp x => encXKK 0xE x 0x9E#8
  | .sknp x => encXKK 0xE x 0xA1#8
  | .ldVxDt x => encXKK 0xF x 0x07#8
  | .ldVxK x => encXKK 0xF x 0x0A#8
  | .ldDtVx x => encXKK 0xF x 0x15#8
  | .ldStVx x => encXKK 0xF x 0x18#8
  | .addIVx x => encXKK 0xF x 0x1E#8
  | .ldFVx x => encXKK 0xF x 0x29#8
  | .ldBVx x => encXKK 0xF x 0x33#8
  | .ldMemVx x => encXKK 0xF x 0x55#8
  | .ldVxMem x => encXKK 0xF x 0x65#8

end Sys2Proof
end

