-- ==== Sys2Proof/Config.lean ====
section
/-! DEFINITION. What is fixed for one machine: the constants of spec/00_scope.md R6, the parameters R7 leaves a model to
take, and the two free draws (R8, 10_state.md R46). The parameters' default VALUES stand in Machine/ResetValues.lean. -/

namespace Sys2Proof

/-- ODD_PC (00 R7, decision D6): whether a jump, call or computed jump to an odd address is taken or raises `OddTarget`. -/
inductive OddPc where
  /-- The default: odd targets are written unchanged. -/
  | allow
  /-- The alternative: an odd target raises `OddTarget`. -/
  | fault
deriving DecidableEq, Repr

/-- The parameters of 00 R7 that a model takes as arguments (10 R46). `fontBase` has the bound of 20 R55,
`FONT_BASE + 80 <= 0x200`, in its type. -/
structure Params where
  oddPc    : OddPc
  fontBase : Fin 433
  fontData : Vector Byte 80
deriving DecidableEq, Repr

namespace Config

/-- MEM_SIZE (00 R6): addresses are 0x000 to 0xFFF. -/
def memSize : Nat := 4096

/-- PROGRAM_BASE (00 R6): where a program is loaded. -/
def programBase : Nat := 0x200

/-- MAX_PROGRAM (00 R6): 4096 - 0x200 bytes. -/
def maxProgram : Nat := 3584

/-- FONT_GLYPH_BYTES (00 R7): bytes of one hex digit's glyph. -/
def glyphBytes : Nat := 5

/-- The size of FONT_DATA: sixteen glyphs (20 R55). -/
def fontBytes : Nat := 80

/-- FREE VALUE (42 R151, 60 R237, decision D21; log 17): the n-th byte of the random source. Nothing constrains it. -/
opaque randByte : Nat → Byte

/-- FREE VALUE (40 R106, decision D12; log 11): the n-th key-choice draw. It is reduced to an index into the set of newly
pressed keys, so it can select any of them. -/
opaque keyChoice : Nat → Nat

end Config

end Sys2Proof
end

