-- ==== Sys2Proof/Machine/ResetValues.lean ====
section
/-! DEFINITION. The values of spec/10_state.md R44 and the default parameters of 00_scope.md R7: what `State.reset` is built
from. The register values are the spec's decision D2 (log 2), the font its decision D3 (log 3). -/

namespace Sys2Proof.Machine

/-- FONT_DATA of 20 R55: sixteen five-byte glyphs, digits 0 to F, top row first (decision D3, general knowledge; log 3). -/
def defaultFont : Vector Byte 80 := #v[
  0xF0, 0x90, 0x90, 0x90, 0xF0,
  0x20, 0x60, 0x20, 0x20, 0x70,
  0xF0, 0x10, 0xF0, 0x80, 0xF0,
  0xF0, 0x10, 0xF0, 0x10, 0xF0,
  0x90, 0x90, 0xF0, 0x10, 0x10,
  0xF0, 0x80, 0xF0, 0x10, 0xF0,
  0xF0, 0x80, 0xF0, 0x90, 0xF0,
  0xF0, 0x10, 0x20, 0x40, 0x40,
  0xF0, 0x90, 0xF0, 0x90, 0xF0,
  0xF0, 0x90, 0xF0, 0x10, 0xF0,
  0xF0, 0x90, 0xF0, 0x90, 0x90,
  0xE0, 0x90, 0xE0, 0x90, 0xE0,
  0xF0, 0x80, 0x80, 0x80, 0xF0,
  0xE0, 0x90, 0x90, 0x90, 0xE0,
  0xF0, 0x80, 0xF0, 0x80, 0xF0,
  0xF0, 0x80, 0xF0, 0x80, 0x80]

/-- The parameters at the values this spec takes (00 R7): ODD_PC = Allow, FONT_BASE = 0x000, the font above. -/
def defaultParams : Params := { oddPc := .allow, fontBase := 0, fontData := defaultFont }

/-- The byte at address `a` right after reset: zero, then FONT_DATA written at FONT_BASE (70 R260, 10 R44). This is also
what an address that memory does not list reads as (log 21). -/
def resetByte (p : Params) (a : Nat) : Byte :=
  if p.fontBase.val ≤ a then (p.fontData[a - p.fontBase.val]?).getD 0#8 else 0#8

/-- `V[0..15]` after reset (10 R44, D2). -/
def resetV : Vector Byte 16 := Vector.replicate 16 0#8

/-- `I` after reset (10 R44, D2). -/
def resetI : Word := 0x0000#16

/-- `pc` after reset: PROGRAM_BASE (10 R44, 20 R54, D2). -/
def resetPc : Word := BitVec.ofNat 16 Config.programBase

/-- `sp` after reset: the stack is empty (10 R44, D2). -/
def resetSp : Nibble := 0

/-- `stack[0..15]` after reset (10 R44, D2). -/
def resetStack : Vector Word 16 := Vector.replicate 16 0#16

/-- DT and ST after reset (10 R44, 60 R229, D2). -/
def resetTimer : Byte := 0#8

/-- `disp[0..2047]` after reset: every pixel unlit (10 R44, D2). -/
def resetDisp : Vector Bool 2048 := Vector.replicate 2048 false

/-- `key[0..15]` after reset: no key pressed (10 R44, D2). -/
def resetKey : Vector Bool 16 := Vector.replicate 16 false

end Sys2Proof.Machine
end

