-- ==== Sys2Proof/Machine/State.lean ====
section
/-! DEFINITION. The machine's state (spec/10_state.md R45, the complete record), the reasons a step could stop, and the state
after reset (R44). Below the record's own fields stand the model's: the parameters and the two draw sources, which the spec
calls inputs of the step (R46) and the fixed form of `exec` and `step` leaves no other place for (log 11, 17, 19). -/

namespace Sys2Proof.Machine

/-- The fatal errors, with what each records (10 R42, 60 R220). Latched in `Mode.halted`. -/
inductive FatalError where
  /-- The fetched word decodes to no instruction: the word, and the `fetch_pc` it came from. -/
  | unknownOpcode (value : Word) (pc : Word)
  /-- CALL with 15 return addresses stacked. -/
  | stackOverflow
  /-- RET with an empty stack. -/
  | stackUnderflow
  /-- A memory access above 0xFFF: the first such address in full width (20 R58), and `fetch_pc`. -/
  | addressOutOfRange (addr : Nat) (pc : Word)
  /-- An odd control-transfer target under ODD_PC = Fault: the target, and `fetch_pc`. -/
  | oddTarget (target : Word) (pc : Word)
  /-- A register value above 0xF used as a hex digit or key index: the value, and `fetch_pc`. -/
  | operandOutOfRange (value : Byte) (pc : Word)
deriving DecidableEq, Repr

/-- The engine mode (10 R40). -/
inductive Mode where
  /-- The next step fetches and executes an instruction. -/
  | running
  /-- A Fx0A waits: its destination register, and the keypad last seen (R41, hidden from programs). -/
  | waitingForKey (x : Nibble) (snap : Vector Bool 16)
  /-- A fatal error has stopped the machine until reset. -/
  | halted (err : FatalError)
deriving DecidableEq, Repr

/-- The random-byte source (42 R151, 60 R237): bytes the host has scripted for the coming draws, and how many free bytes
(`Config.randByte`) have been drawn once the script is used up. The model's own (log 17). -/
structure RandSource where
  script : List Byte
  drawn  : Nat
deriving DecidableEq, Repr

/-- The key-choice draws of a resuming Fx0A (40 R106), scripted first and free (`Config.keyChoice`) after that. The model's
own (log 11). -/
structure KeySource where
  script : List Nat
  drawn  : Nat
deriving DecidableEq, Repr

/-- The whole state. Memory is a list of (address, byte) in canonical form (`Memory.wf`): an address it does not list reads
as the reset contents. -/
structure State where
  /-- V0 to VF (10 R20); VF is the flag register (R21). -/
  v       : Vector Byte 16
  /-- The address register I (10 R23). -/
  i       : Word
  /-- The program counter (10 R24). -/
  pc      : Word
  /-- The number of return addresses on the stack (10 R30). -/
  sp      : Nibble
  /-- The return stack; slot 0 is never written by CALL (10 R29, R31). -/
  stack   : Vector Word 16
  /-- The delay timer (10 R35). -/
  dt      : Byte
  /-- The sound timer (10 R36). -/
  st      : Byte
  /-- The display, cell (x, y) at index y * 64 + x (10 R37). -/
  disp    : Vector Bool 2048
  /-- The keypad, written by the host only (10 R39). -/
  key     : Vector Bool 16
  /-- The engine mode (10 R40). -/
  mode    : Mode
  /-- The memory (10 R43, 20 R50). -/
  mem     : List Host.Cell
  /-- ODD_PC, FONT_BASE, FONT_DATA (00 R7); no instruction and no transaction changes them. -/
  params  : Params
  /-- The random-byte source. -/
  rand    : RandSource
  /-- The key-choice draws. -/
  keyRand : KeySource
deriving DecidableEq, Repr

/-- The reasons a step of this machine stops with no next state: NONE. Every error of the spec has a described entry
(60 R222) and is a next state in mode `halted` (log 12), and a step of a halted core leaves the state as it is (40 R107), so
this type has no constructor and no step can raise one. -/
inductive Fault where
deriving DecidableEq, Repr

/-- What the model refuses to give a meaning to. -/
inductive Refusal where
  /-- An instruction without a meaning, by its mnemonic. Raised by nobody: every arm of `exec` has its meaning. Safe. -/
  | notModelled (mnemonic : String)
  /-- A `load` after the first step since reset, to which the spec gives no meaning (70 R263, decision D23; log 18). Raised
  by the load transaction only, never by a step. Safe. -/
  | loadAfterStep
deriving DecidableEq, Repr

/-- What a meaning answers. -/
abbrev Result := Host.Outcome State Fault Refusal

/-- The state after reset under given parameters (10 R44, 70 R260): the memory lists nothing, so every byte reads as
`resetByte`. -/
def State.resetWith (p : Params) : State where
  v       := resetV
  i       := resetI
  pc      := resetPc
  sp      := resetSp
  stack   := resetStack
  dt      := resetTimer
  st      := resetTimer
  disp    := resetDisp
  key     := resetKey
  mode    := .running
  mem     := []
  params  := p
  rand    := { script := [], drawn := 0 }
  keyRand := { script := [], drawn := 0 }

/-- The state after reset, under the default parameters of 00 R7. -/
def State.reset : State := State.resetWith defaultParams

end Sys2Proof.Machine
end

