-- ==== Sys2Proof/Machine/Memory.lean ====
section
/-! DEFINITION. Memory as a list of (address, byte) cells in one canonical form: addresses strictly rising, all below
0x1000, and no cell equal to what its address reads as when it is not listed (`resetByte`; log 21). One byte is the unit of
every data access (spec/20_memory.md R60); the fetch's byte order is `joinBytes`. -/

namespace Sys2Proof.Machine

/-- The byte at address `a`: the listed one, or the reset contents. -/
def Memory.read (p : Params) : List Host.Cell → Nat → Byte
  | [], a => resetByte p a
  | (k, b) :: rest, a => if k = a then b else Memory.read p rest a

/-- A cell in front of the cells that follow it, left out where it says what an unlisted address reads as. -/
def Memory.put (p : Params) (a : Nat) (b : Byte) (rest : List Host.Cell) : List Host.Cell :=
  if b = resetByte p a then rest else (a, b) :: rest

/-- Writing byte `b` at address `a`, keeping the canonical form. -/
def Memory.write (p : Params) : List Host.Cell → Nat → Byte → List Host.Cell
  | [], a, b => Memory.put p a b []
  | (k, c) :: rest, a, b =>
    if a < k then Memory.put p a b ((k, c) :: rest)
    else if a = k then Memory.put p a b rest
    else (k, c) :: Memory.write p rest a b

/-- Every listed address is at least `lo`. -/
def Memory.above (lo : Nat) : List Host.Cell → Bool
  | [] => true
  | (k, _) :: _ => decide (lo ≤ k)

/-- The canonical form. -/
def Memory.wf (p : Params) : List Host.Cell → Bool
  | [] => true
  | (k, b) :: rest => decide (k < Config.memSize) && (b != resetByte p k) && Memory.above (k + 1) rest && Memory.wf p rest

end Sys2Proof.Machine
end

