-- ==== Sys2Proof/Machine/Ops.lean ====
section
/-! DEFINITION. The named operations over registers, memory, stack, display and draws that the meanings share, and TAKING A
FATAL ERROR, the machine's one exception (`raise`). The spec has no return from an error (60 R223): only the reset
transaction leaves `halted` (Interface.lean). -/

namespace Sys2Proof.Machine

/-! ## Registers -/

/-- Read `V[r]` (00 R11). -/
def State.readV (s : State) (r : Nibble) : Byte := s.v[r]

/-- `V[r] <- b` (00 R11). -/
def State.writeV (s : State) (r : Nibble) (b : Byte) : State := { s with v := s.v.set r b }

/-- The index of VF, the flag register (10 R21). -/
def vf : Nibble := 15

/-- `I <- a`. -/
def State.writeI (s : State) (a : Word) : State := { s with i := a }

/-- `pc <- a` (00 R12). -/
def State.writePc (s : State) (a : Word) : State := { s with pc := a }

/-- The fetch advance, `pc <- (fetch_pc + 2) mod 2^16` (40 R101). -/
def State.advance (s : State) : State := s.writePc (s.pc + 2#16)

/-- `skip`: `pc <- (pc + 2) mod 2^16` (41 R124). -/
def State.skip (s : State) : State := s.writePc (s.pc + 2#16)

/-- A skip instruction's end: skip where the condition holds, nothing else (41 R124). -/
def State.skipIf (s : State) (c : Bool) : State := if c then s.skip else s

/-- The address the executing instruction was fetched from. A meaning runs with `pc` already advanced (40 R101, R104), so
`fetch_pc` is `pc - 2` (DEDUCED; log 20). -/
def State.fetchPc (s : State) : Word := s.pc - 2#16

/-! ## Taking a fatal error -/

/-- `raise E` (40 R109, 60 R222): the mode becomes `halted E`; nothing is saved, no program address is entered, and `pc`
keeps the fetch advance it already has. The error's entry is a next state (log 12). -/
def State.raise (s : State) (e : FatalError) : State := { s with mode := .halted e }

/-- A meaning that ends in a fatal error. -/
def fatal (e : FatalError) (s : State) : Result := .next (s.raise e)

/-! ## Memory -/

/-- The byte at `a`. Every access of a meaning stands behind `guardRange`, so `a` is below 0x1000 (20 R58; log 26). -/
def State.readByte (s : State) (a : Nat) : Byte := Memory.read s.params s.mem a

/-- Write one byte at `a`, behind the same range check. -/
def State.writeByte (s : State) (a : Nat) (b : Byte) : State := { s with mem := Memory.write s.params s.mem a b }

/-- The first address above 0xFFF among the `n` addresses from `a` on, in full width with no wrap (20 R58), if any. -/
def firstOutOfRange (a n : Nat) : Option Nat :=
  if 0 < n ∧ Config.memSize < a + n then some (max a Config.memSize) else none

/-- The range check of 20 R58 over a whole access, made before any write (00 R12): the rest of the meaning, or
`AddressOutOfRange`. -/
def guardRange (a n : Nat) (s : State) (rest : Result) : Result :=
  match firstOutOfRange a n with
  | some bad => fatal (.addressOutOfRange bad s.fetchPc) s
  | none => rest

/-- Write the bytes in order from `a` on. -/
def State.storeBytes (s : State) (a : Nat) : List Byte → State
  | [] => s
  | b :: bs => (s.writeByte a b).storeBytes (a + 1) bs

/-- The `n` bytes from `a` on. -/
def State.loadBytes (s : State) (a : Nat) : Nat → List Byte
  | 0 => []
  | n + 1 => s.readByte a :: s.loadBytes (a + 1) n

/-- `V[r], V[r+1], ... <- bs`; registers past VF do not exist and nothing is written there. -/
def State.storeRegs (s : State) (r : Nat) : List Byte → State
  | [] => s
  | b :: bs => State.storeRegs { s with v := s.v.setIfInBounds r b } (r + 1) bs

/-- The sixteen 4-bit values, rising: register indices and keys. -/
def nibbles : List Nibble := [0, 1, 2, 3, 4, 5, 6, 7, 8, 9, 10, 11, 12, 13, 14, 15]

/-- `V[0], ..., V[x]` (43 R174, inclusive). -/
def State.regsUpTo (s : State) (x : Nibble) : List Byte := (nibbles.take (x.val + 1)).map s.readV

/-! ## The return stack -/

/-- The return stack is full: 15 return addresses (10 R31, R32). -/
def State.stackFull (s : State) : Bool := s.sp == 15

/-- The return stack is empty (10 R30, R32). -/
def State.stackEmpty (s : State) : Bool := s.sp == 0

/-- `sp <- sp + 1; stack[sp] <- a`, behind the check that the stack is not full (10 R33, decision D15; log 14). -/
def State.push (s : State) (a : Word) : State :=
  { s with sp := s.sp + 1, stack := s.stack.set (s.sp + 1 : Nibble).val a (s.sp + 1 : Nibble).isLt }

/-- `stack[sp]`, the most recent return address, behind the check that the stack is not empty (10 R30, R34). -/
def State.top (s : State) : Word := s.stack[s.sp]

/-- `sp <- sp - 1`; the slot keeps its value (10 R34, decision D28; log 14). -/
def State.drop (s : State) : State := { s with sp := s.sp - 1 }

/-! ## Control transfer -/

/-- Whether writing `t` to `pc` raises `OddTarget`: an odd target under ODD_PC = Fault (10 R26, decision D6; log 5). -/
def State.rejectsTarget (s : State) (t : Word) : Bool := s.params.oddPc == .fault && t.getLsbD 0

/-- The end of a jump or call: `OddTarget` where ODD_PC asks for it, else the state `rest` with `pc <- t`. -/
def jumpTo (t : Word) (s rest : State) : Result :=
  if s.rejectsTarget t then fatal (.oddTarget t s.fetchPc) s else .next (rest.writePc t)

/-! ## The display -/

/-- The cell of pixel column `cx` and row `cy`, `cy * 64 + cx`, with both coordinates wrapped (44 R191). -/
def cellOf (cx cy : Nat) : Fin 2048 := ⟨cy % 32 * 64 + cx % 64, by omega⟩

/-- The display and the collision flag while a sprite is drawn. -/
abbrev Canvas := Vector Bool 2048 × Bool

/-- One sprite bit at column `cx`, row `cy`: a set bit inverts the pixel and records a hit if it was lit; a clear bit does
nothing (44 R191). -/
def drawBit (bit : Bool) (cx cy : Nat) (c : Canvas) : Canvas :=
  if bit then (c.1.set (cellOf cx cy) (!c.1[cellOf cx cy]), c.2 || c.1[cellOf cx cy]) else c

/-- Column `k` of a sprite byte: bit `7 - k`, bit 7 leftmost (44 R191, decision D11; log 10). -/
def spriteBit (b : Byte) (k : Nat) : Bool := b.getLsbD (7 - k)

/-- The `k` leftmost columns of one sprite byte, from left to right. -/
def drawColumns (b : Byte) (x0 cy : Nat) : Nat → Canvas → Canvas
  | 0, c => c
  | k + 1, c => drawBit (spriteBit b k) (x0 + k) cy (drawColumns b x0 cy k c)

/-- The sprite's rows from row `cy` down, one byte each. -/
def drawRows (x0 : Nat) : Nat → List Byte → Canvas → Canvas
  | _, [], c => c
  | cy, b :: bs, c => drawRows x0 (cy + 1) bs (drawColumns b x0 cy 8 c)

/-! ## The draws -/

/-- `draw Rand()`: the next byte of the source, and the source after it (00 R12, 42 R151). -/
def RandSource.next (r : RandSource) : Byte × RandSource :=
  match r.script with
  | b :: rest => (b, { r with script := rest })
  | [] => (Config.randByte r.drawn, { r with drawn := r.drawn + 1 })

/-- The next key-choice draw, and the source after it (40 R106). -/
def KeySource.next (k : KeySource) : Nat × KeySource :=
  match k.script with
  | n :: rest => (n, { k with script := rest })
  | [] => (Config.keyChoice k.drawn, { k with drawn := k.drawn + 1 })

/-- `draw KeyChoice(S)` (00 R12): the element of `keys` that a draw selects; none only of the empty list. -/
def pickKey (draw : Nat) (keys : List Nibble) : Option Nibble := keys[draw % keys.length]?

/-- The set S of 40 R106: the keys pressed now and not in the snapshot. -/
def newlyPressed (key snap : Vector Bool 16) : List Nibble := nibbles.filter fun k => key[k] && !snap[k]

end Sys2Proof.Machine
end

