-- ==== Sys2Proof/Machine/Operands.lean ====
section
/-! DEFINITION. The operand forms of spec/30_encoding.md R76 and R77 as values: every field is unsigned and zero-extended
where it is used. -/

namespace Sys2Proof.Machine

/-- `zext_16(nnn)`: an immediate address as written to `pc` or `I`; bits 15:12 are 0 (30 R77). -/
def immAddr (nnn : Addr12) : Word := nnn.setWidth 16

/-- `zext_16(V[x])`: a register added to a 16-bit value (43 R171, 41 R129). -/
def regAddr (b : Byte) : Word := b.setWidth 16

/-- JP V0's target: `(zext_16(nnn) + zext_16(V0)) & 0x0FFF` (41 R129, decision D20; log 16). -/
def tableTarget (nnn : Addr12) (v0 : Byte) : Word := (immAddr nnn + regAddr v0) &&& 0x0FFF#16

/-- A register value as a hex digit or key index: itself when at most 0xF, else none (43 R172, 44 R192, R193). -/
def asNibble (b : Byte) : Option Nibble := if h : b.toNat < 16 then some ⟨b.toNat, h⟩ else none

/-- A meaning that needs its operand to be a digit or a key: `OperandOutOfRange` where it is not (decisions D4, D5;
log 4). -/
def withNibble (b : Byte) (s : State) (use : Nibble → Result) : Result :=
  match asNibble b with
  | some d => use d
  | none => fatal (.operandOutOfRange b s.fetchPc) s

/-- The address of digit `d`'s glyph, `FONT_BASE + FONT_GLYPH_BYTES * d` (43 R172). -/
def glyphAddr (p : Params) (d : Nibble) : Word := BitVec.ofNat 16 (p.fontBase.val + Config.glyphBytes * d.val)

/-- The three decimal digits of a byte, hundreds first (43 R173). -/
def bcdDigits (b : Byte) : List Byte :=
  [BitVec.ofNat 8 (b.toNat / 100), BitVec.ofNat 8 (b.toNat / 10 % 10), BitVec.ofNat 8 (b.toNat % 10)]

end Sys2Proof.Machine
end

