-- ==== Sys2Proof/Machine/Flags.lean ====
section
/-! DEFINITION. Every flag computation of spec/10_state.md R27, from the operand values before any write (40 R105), and the
one way a result and its flag are written: the result first, VF last (42 R152, decision D8; log 7). -/

namespace Sys2Proof.Machine

/-- `bool(c)` as a register value (00 R10). -/
def flagByte (c : Bool) : Byte := if c then 1#8 else 0#8

/-- ADD's carry: the exact sum exceeds 255 (42 R146). -/
def carryFlag (a b : Byte) : Bool := decide (255 < a.toNat + b.toNat)

/-- SUB's and SUBN's flag: the minuend is STRICTLY greater (42 R147, R149). -/
def greaterFlag (a b : Byte) : Bool := decide (b.toNat < a.toNat)

/-- SHR's flag: bit 0 of the operand (42 R148). -/
def lowBitFlag (a : Byte) : Bool := a.getLsbD 0

/-- SHL's flag: bit 7 of the operand (42 R150). -/
def highBitFlag (a : Byte) : Bool := a.getLsbD 7

/-- `V[x] <- result`, then `V[0xF] <- flag`: where x is F, VF holds the flag (42 R152). -/
def State.writeVAndFlag (s : State) (x : Nibble) (result : Byte) (flag : Bool) : State :=
  (s.writeV x result).writeV vf (flagByte flag)

end Sys2Proof.Machine
end

