-- ==== Sys2Proof/Machine/Alu.lean ====
section
/-! DEFINITION. Register loads, the ALU and RND (spec/42_register_alu.md). Operands are read before any write (40 R105); the
flag, where there is one, is written last (R152). All arithmetic is unsigned modulo 256 (R153). -/

namespace Sys2Proof.Machine

/-- LD Vx, byte (42 R140). -/
def execLdByte (x : Nibble) (kk : Byte) (s : State) : Result := .next (s.writeV x kk)

/-- ADD Vx, byte (42 R141): the carry is lost and VF is not written. -/
def execAddByte (x : Nibble) (kk : Byte) (s : State) : Result := .next (s.writeV x (s.readV x + kk))

/-- LD Vx, Vy (42 R142). -/
def execLdReg (x y : Nibble) (s : State) : Result := .next (s.writeV x (s.readV y))

/-- OR Vx, Vy (42 R143): VF is not reset. -/
def execOr (x y : Nibble) (s : State) : Result := .next (s.writeV x (s.readV x ||| s.readV y))

/-- AND Vx, Vy (42 R144). -/
def execAnd (x y : Nibble) (s : State) : Result := .next (s.writeV x (s.readV x &&& s.readV y))

/-- XOR Vx, Vy (42 R145). -/
def execXor (x y : Nibble) (s : State) : Result := .next (s.writeV x (s.readV x ^^^ s.readV y))

/-- ADD Vx, Vy (42 R146). -/
def execAddReg (x y : Nibble) (s : State) : Result :=
  .next (s.writeVAndFlag x (s.readV x + s.readV y) (carryFlag (s.readV x) (s.readV y)))

/-- SUB Vx, Vy (42 R147): Vx - Vy, flag Vx > Vy. -/
def execSub (x y : Nibble) (s : State) : Result :=
  .next (s.writeVAndFlag x (s.readV x - s.readV y) (greaterFlag (s.readV x) (s.readV y)))

/-- SHR Vx (42 R148): `y` is neither read nor written. -/
def execShr (x _y : Nibble) (s : State) : Result :=
  .next (s.writeVAndFlag x (s.readV x >>> 1) (lowBitFlag (s.readV x)))

/-- SUBN Vx, Vy (42 R149): Vy - Vx, flag Vy > Vx. -/
def execSubn (x y : Nibble) (s : State) : Result :=
  .next (s.writeVAndFlag x (s.readV y - s.readV x) (greaterFlag (s.readV y) (s.readV x)))

/-- SHL Vx (42 R150): `y` is neither read nor written. -/
def execShl (x _y : Nibble) (s : State) : Result :=
  .next (s.writeVAndFlag x (s.readV x <<< 1) (highBitFlag (s.readV x)))

/-- RND Vx, byte (42 R151): exactly one draw, taken whatever the mask is. -/
def execRnd (x : Nibble) (kk : Byte) (s : State) : Result :=
  .next { s.writeV x (s.rand.next.1 &&& kk) with rand := s.rand.next.2 }

end Sys2Proof.Machine
end

