-- ==== Sys2Proof/Machine/Control.lean ====
section
/-! DEFINITION. The control flow instructions (spec/41_control_flow.md). In every meaning `pc` is already `fetch_pc + 2`
(40 R101, R104). -/

namespace Sys2Proof.Machine

/-- RET (41 R120): StackUnderflow on an empty stack, else the popped value to `pc`, unmasked; the slot keeps its value. -/
def execRet (s : State) : Result :=
  if s.stackEmpty then fatal .stackUnderflow s else .next (s.drop.writePc s.top)

/-- SYS (41 R121): no effect; `nnn` is ignored. -/
def execSys (_nnn : Addr12) (s : State) : Result := .next s

/-- JP addr (41 R122). -/
def execJp (nnn : Addr12) (s : State) : Result := jumpTo (immAddr nnn) s s

/-- CALL addr (41 R123): StackOverflow is checked before OddTarget, both before any write; the pushed value is the advanced
`pc`. -/
def execCall (nnn : Addr12) (s : State) : Result :=
  if s.stackFull then fatal .stackOverflow s else jumpTo (immAddr nnn) s (s.push s.pc)

/-- SE Vx, byte (41 R125). -/
def execSeByte (x : Nibble) (kk : Byte) (s : State) : Result := .next (s.skipIf (s.readV x == kk))

/-- SNE Vx, byte (41 R126). -/
def execSneByte (x : Nibble) (kk : Byte) (s : State) : Result := .next (s.skipIf (s.readV x != kk))

/-- SE Vx, Vy (41 R127). -/
def execSeReg (x y : Nibble) (s : State) : Result := .next (s.skipIf (s.readV x == s.readV y))

/-- SNE Vx, Vy (41 R128). -/
def execSneReg (x y : Nibble) (s : State) : Result := .next (s.skipIf (s.readV x != s.readV y))

/-- JP V0, addr (41 R129): the offset register is always V0. -/
def execJpV0 (nnn : Addr12) (s : State) : Result := jumpTo (tableTarget nnn (s.readV 0)) s s

end Sys2Proof.Machine
end

