-- ==== Sys2Proof/Machine/Display.lean ====
section
/-! DEFINITION. The display instructions (spec/44_display_keypad_timer.md section 1). -/

namespace Sys2Proof.Machine

/-- CLS (44 R190): every cell false. -/
def execCls (s : State) : Result := .next { s with disp := Vector.replicate 2048 false }

/-- The display and the collision flag after DRW's sprite: rows `I` to `I + n - 1` at column Vx, row Vy. -/
def drawSprite (x y n : Nibble) (s : State) : Canvas :=
  drawRows (s.readV x).toNat (s.readV y).toNat (s.loadBytes s.i.toNat n.val) (s.disp, false)

/-- DRW Vx, Vy, nibble (44 R191): the coordinates are read before VF is written, and VF is written on every DRW, n = 0
included. -/
def execDrw (x y n : Nibble) (s : State) : Result :=
  guardRange s.i.toNat n.val s
    (.next ({ s with disp := (drawSprite x y n s).1 }.writeV vf (flagByte (drawSprite x y n s).2)))

end Sys2Proof.Machine
end

