-- ==== Sys2Proof/Machine/Index.lean ====
section
/-! DEFINITION. The address register and the memory instructions (spec/43_index_memory.md). Each checks its whole address
range before its first write (20 R58); none but the first three changes I, and none writes a flag. -/

namespace Sys2Proof.Machine

/-- LD I, addr (43 R170). -/
def execLdI (nnn : Addr12) (s : State) : Result := .next (s.writeI (immAddr nnn))

/-- ADD I, Vx (43 R171, decision D9; log 8): modulo 2^16, VF untouched, no check. -/
def execAddIVx (x : Nibble) (s : State) : Result := .next (s.writeI (s.i + regAddr (s.readV x)))

/-- LD F, Vx (43 R172). -/
def execLdFVx (x : Nibble) (s : State) : Result :=
  withNibble (s.readV x) s fun d => .next (s.writeI (glyphAddr s.params d))

/-- LD B, Vx (43 R173). -/
def execLdBVx (x : Nibble) (s : State) : Result :=
  guardRange s.i.toNat 3 s (.next (s.storeBytes s.i.toNat (bcdDigits (s.readV x))))

/-- LD [I], Vx (43 R174): V0 to Vx inclusive; I is kept (decision D10; log 9). -/
def execLdMemVx (x : Nibble) (s : State) : Result :=
  guardRange s.i.toNat (x.val + 1) s (.next (s.storeBytes s.i.toNat (s.regsUpTo x)))

/-- LD Vx, [I] (43 R175): V0 to Vx inclusive; I is kept (decision D10; log 9). -/
def execLdVxMem (x : Nibble) (s : State) : Result :=
  guardRange s.i.toNat (x.val + 1) s (.next (s.storeRegs 0 (s.loadBytes s.i.toNat (x.val + 1))))

end Sys2Proof.Machine
end

