-- ==== Sys2Proof/Machine/KeysTimers.lean ====
section
/-! DEFINITION. The keypad and timer instructions (spec/44_display_keypad_timer.md sections 2 and 3), and the step of a core
that waits for a key (40_execution_cycle.md R106). -/

namespace Sys2Proof.Machine

/-- SKP Vx (44 R192). -/
def execSkp (x : Nibble) (s : State) : Result :=
  withNibble (s.readV x) s fun k => .next (s.skipIf s.key[k])

/-- SKNP Vx (44 R193). -/
def execSknp (x : Nibble) (s : State) : Result :=
  withNibble (s.readV x) s fun k => .next (s.skipIf (!s.key[k]))

/-- LD Vx, DT (44 R194). -/
def execLdVxDt (x : Nibble) (s : State) : Result := .next (s.writeV x s.dt)

/-- LD Vx, K (44 R195): the core starts to wait, with a snapshot of the keypad; Vx is written by the step that resumes. -/
def execLdVxK (x : Nibble) (s : State) : Result := .next { s with mode := .waitingForKey x s.key }

/-- LD DT, Vx (44 R196). -/
def execLdDtVx (x : Nibble) (s : State) : Result := .next { s with dt := s.readV x }

/-- LD ST, Vx (44 R197). -/
def execLdStVx (x : Nibble) (s : State) : Result := .next { s with st := s.readV x }

/-- `V[x] <- k`, `mode <- Running` (40 R106): the resuming step fetches nothing. -/
def State.resume (s : State) (x k : Nibble) : State :=
  { s.writeV x (BitVec.ofNat 8 k.val) with mode := .running, keyRand := s.keyRand.next.2 }

/-- The step of a waiting core (40 R106, decision D12; log 11): it resumes with one of the keys pressed now and not in the
snapshot; where there is none, the snapshot becomes the keypad now seen. -/
def waitStep (x : Nibble) (snap : Vector Bool 16) (s : State) : State :=
  match pickKey s.keyRand.next.1 (newlyPressed s.key snap) with
  | some k => s.resume x k
  | none => { s with mode := .waitingForKey x s.key }

end Sys2Proof.Machine
end

