-- ==== Sys2Proof/Machine/Fetch.lean ====
section
/-! DEFINITION. Fetching an instruction (spec/40_execution_cycle.md R101, 20_memory.md R57), the two errors of a running step
before its handler (R101, R103), and placing a word where the next step fetches. -/

namespace Sys2Proof.Machine

/-- The word at `pc`: the byte at the lower address is the high one (20 R57). -/
def State.fetchWord (s : State) : Word := joinBytes (s.readByte s.pc.toNat) (s.readByte (s.pc.toNat + 1))

/-- A fetch whose bytes reach past 0xFFF: `AddressOutOfRange` with the first such address, `pc` not advanced (40 R101,
decision D27; log 6). -/
def fetchFault (bad : Nat) (s : State) : Result := fatal (.addressOutOfRange bad s.pc) s

/-- An unknown word: `UnknownOpcode`, with the fetch advance kept (40 R103). -/
def unknownOpcode (s : State) : Result := fatal (.unknownOpcode s.fetchWord s.pc) s.advance

/-- The address the word of `withFetchWord` goes to: `pc` where both bytes of a fetch exist there, else PROGRAM_BASE. -/
def State.fetchSlot (s : State) : Word :=
  if s.pc.toNat + 1 < Config.memSize then s.pc else BitVec.ofNat 16 Config.programBase

/-- `s` about to fetch the word `w`: running, `pc` at a place a fetch can read, `w` there in memory order. -/
def State.placeWord (s : State) (w : Word) : State :=
  { s with mode := .running, pc := s.fetchSlot }.storeBytes s.fetchSlot.toNat (wordBytes w)

end Sys2Proof.Machine
end

