-- ==== Sys2Proof/Machine/Step.lean ====
section
/-! DEFINITION. The step (spec/40_execution_cycle.md R100): which sub-rule runs is the mode's choice. The draws of R100's inputs
come from the state's two sources; Interface.lean's `stepWith` takes them as arguments. -/

namespace Sys2Proof.Machine

/-- Execute or report Unknown (40 R102 to R104), with `pc` already advanced. -/
def stepDecoded (s : State) : Result :=
  match decode s.fetchWord with
  | some i => exec i s.advance
  | none => unknownOpcode s

/-- A step in `running`: fetch, decode, dispatch (40 R101 to R104). -/
def stepRunning (s : State) : Result :=
  match firstOutOfRange s.pc.toNat 2 with
  | some bad => fetchFault bad s
  | none => stepDecoded s

/-- One step (40 R100): R101 to R104 when running, R106 when waiting, R107 when halted: nothing changes. -/
def step (s : State) : Host.Outcome State Fault Refusal :=
  match s.mode with
  | .running => stepRunning s
  | .waitingForKey x snap => .next (waitStep x snap s)
  | .halted _ => .next s

/-- `s` with the instruction whose bits are `w` stored where `step` fetches its next instruction, so that the very next step
runs it (log 22). -/
def State.withFetchWord (s : State) (nbits w : Nat) : State := s.placeWord (tableWord nbits w)

end Sys2Proof.Machine
end

