-- ==== Sys2Proof/Machine/Interface.lean ====
section
/-! DEFINITION. The host's transactions (spec/60_exceptions.md R236), each atomic, none inside a step (20 R64, decisions D1,
D24; log 1): reset, load, step, tick, key_write, and the three reads display, sound and status. -/

namespace Sys2Proof.Machine

/-- `reset()` (70 R260), in any mode. The parameters and the draw sources are not the core's state and stay (log 23). -/
def resetTx (s : State) : State := { State.resetWith s.params with rand := s.rand, keyRand := s.keyRand }

/-- The size check of a load: at most 3584 bytes (70 R263). -/
def programFits (bytes : List Byte) : Bool := decide (bytes.length ≤ Config.maxProgram)

/-- `load(bytes)` (70 R263): byte k goes to `0x200 + k`; a program that does not fit writes nothing. -/
def loadTx (bytes : List Byte) (s : State) : State :=
  if programFits bytes then s.storeBytes Config.programBase bytes else s

/-- A timer after a tick: one less, never below 0 (60 R230). -/
def countDown (t : Byte) : Byte := if t = 0#8 then 0#8 else t - 1#8

/-- `tick()` (60 R230): both timers count down, unless the core is halted. -/
def tickTx (s : State) : State :=
  match s.mode with
  | .halted _ => s
  | .running | .waitingForKey _ _ => { s with dt := countDown s.dt, st := countDown s.st }

/-- `key_write(k, p)` (60 R235). -/
def keyWriteTx (k : Nibble) (p : Bool) (s : State) : State := { s with key := s.key.set k p }

/-- `display()` (60 R234): the whole grid, row-major. -/
def displayTx (s : State) : Vector Bool 2048 := s.disp

/-- `sound()` (60 R233): `sound_value` and `sound_active`. -/
def soundTx (s : State) : Byte × Bool := (s.st, s.st != 0#8)

/-- `status()` (60 R236): the mode, with a latched error. -/
def statusTx (s : State) : Mode := s.mode

/-- The outcome a step reports to the host (40 R108). -/
inductive StepOutcome where
  | executed
  | waiting
  | fault (err : FatalError)
deriving DecidableEq, Repr

/-- The outcome of a step, read from the state it answers (40 R108): `fault` where the core is halted, in this step or an
earlier one; `waiting` where it waits, the step that executes Fx0A included; `executed` otherwise. -/
def State.outcome (t : State) : StepOutcome :=
  match t.mode with
  | .running => .executed
  | .waitingForKey _ _ => .waiting
  | .halted err => .fault err

/-- `step(r, kc)` (40 R100): the step with its random byte and its key-choice draw given. A step that uses neither ignores
both (60 R237), and the state's own sources stay as they are. -/
def stepWith (r : Byte) (kc : Nat) (s : State) : Result :=
  match step { s with rand := { s.rand with script := [r] }, keyRand := { s.keyRand with script := [kc] } } with
  | .next t => .next { t with rand := s.rand, keyRand := s.keyRand }
  | .fault e => .fault e
  | .refused e => .refused e

/-- The transactions of 60 R236. -/
inductive Transaction where
  | reset
  | load (bytes : List Byte)
  | step (r : Byte) (kc : Nat)
  | tick
  | keyWrite (k : Nibble) (p : Bool)
  | display
  | sound
  | status
deriving DecidableEq, Repr

/-- What a transaction returns to the host. -/
inductive Response where
  | done
  /-- ProgramTooLarge, a load-time error (10 R42, 70 R263): the core keeps no record of it and goes on under its host. -/
  | programTooLarge
  | stepped (o : StepOutcome)
  | display (grid : Vector Bool 2048)
  | sound (value : Byte) (active : Bool)
  | status (m : Mode)
deriving DecidableEq, Repr

/-- The core under a host: its state, and whether a step has been issued since the last reset, which decides whether a load
has a meaning (70 R263, decision D23; log 18). -/
structure Session where
  state   : State
  stepped : Bool
deriving DecidableEq, Repr

/-- What a load returns: ProgramTooLarge where the program does not fit (70 R263). -/
def loadResponse (bytes : List Byte) : Response := if programFits bytes then .done else .programTooLarge

/-- One transaction of the host. An oversize load answers a session, the same as before it: the host decides what follows
(70 R263). A load after the first step is refused: the spec gives it no meaning (decision D23; log 18). -/
def transact (tx : Transaction) (u : Session) : Host.Outcome (Session × Response) Fault Refusal :=
  match tx with
  | .reset => .next (⟨resetTx u.state, false⟩, .done)
  | .load bytes =>
    if u.stepped then .refused .loadAfterStep
    else .next (⟨loadTx bytes u.state, u.stepped⟩, loadResponse bytes)
  | .step r kc =>
    match stepWith r kc u.state with
    | .next t => .next (⟨t, true⟩, .stepped t.outcome)
    | .fault e => .fault e
    | .refused e => .refused e
  | .tick => .next (⟨tickTx u.state, u.stepped⟩, .done)
  | .keyWrite k p => .next (⟨keyWriteTx k p u.state, u.stepped⟩, .done)
  | .display => .next (u, .display (displayTx u.state))
  | .sound => .next (u, .sound (soundTx u.state).1 (soundTx u.state).2)
  | .status => .next (u, .status (statusTx u.state))

/-- A host's whole schedule: its transactions in order, stopping at the first that is refused. -/
def transactAll : List Transaction → Session → Host.Outcome Session Fault Refusal
  | [], u => .next u
  | tx :: rest, u =>
    match transact tx u with
    | .next (u', _) => transactAll rest u'
    | .fault e => .fault e
    | .refused e => .refused e

end Sys2Proof.Machine
end

