-- ==== Sys2Proof/Safety.lean ====
section
/-! DEFINITION. The terms in which claims speak of a run: what one step may change (frames), and the invariants of a
well-behaved state. -/

namespace Sys2Proof.Machine

/-! ## Frames -/

/-- The parts of the state, one for each field. -/
inductive Part where
  | v | i | pc | sp | stack | dt | st | disp | key | mode | mem | params | rand | keyRand
deriving DecidableEq, Repr

/-- `t` has the part as `s` has it. Registers, stack slots, cells and keys are compared one by one through their reads, and
memory through the model's read of one byte, at every address. -/
def Part.Same (p : Part) (s t : State) : Prop :=
  match p with
  | .v => ∀ r : Nibble, t.readV r = s.readV r
  | .i => t.i = s.i
  | .pc => t.pc = s.pc
  | .sp => t.sp = s.sp
  | .stack => ∀ j : Nibble, t.stack[j] = s.stack[j]
  | .dt => t.dt = s.dt
  | .st => t.st = s.st
  | .disp => ∀ c : Fin 2048, t.disp[c] = s.disp[c]
  | .key => ∀ k : Nibble, t.key[k] = s.key[k]
  | .mode => t.mode = s.mode
  | .mem => ∀ a : Nat, t.readByte a = s.readByte a
  | .params => t.params = s.params
  | .rand => t.rand = s.rand
  | .keyRand => t.keyRand = s.keyRand

/-- From `s` to `t` nothing changes outside the listed parts. -/
def OnlyChanges (parts : List Part) (s t : State) : Prop := ∀ p : Part, p ∉ parts → p.Same s t

/-- Every byte outside the `n` bytes from `a` on reads as before. -/
def MemKeptOutside (a n : Nat) (s t : State) : Prop :=
  ∀ b : Nat, b < a ∨ a + n ≤ b → t.readByte b = s.readByte b

/-- Every general register but `x` is unchanged. -/
def RegsKeptBut (x : Nibble) (s t : State) : Prop := ∀ r : Nibble, r ≠ x → t.readV r = s.readV r

/-- The pixel of column `cx` and row `cy`: `disp[cy * 64 + cx]` (10 R37). -/
def State.pixelAt (s : State) (cx : Fin 64) (cy : Fin 32) : Bool := s.disp[cy.val * 64 + cx.val]'(by omega)

/-- The n-byte sprite at `I`, drawn at column Vx and row Vy, has a set bit on the pixel (cx, cy): some row `r` and column `c`
of it, bit `7 - c` of byte `I + r`, falls there with both coordinates wrapped (44 R191). -/
def SpriteCovers (x y n : Nibble) (s : State) (cx : Fin 64) (cy : Fin 32) : Prop :=
  ∃ r c : Nat, r < n.val ∧ c < 8 ∧ (s.readByte (s.i.toNat + r)).getLsbD (7 - c) = true ∧
    cx.val = ((s.readV x).toNat + c) % 64 ∧ cy.val = ((s.readV y).toNat + r) % 32

/-- The step ends in the fatal error `e`, and nothing changes but the mode (60 R221, 40 R109). -/
def StopsWith (e : FatalError) (s : State) (r : Result) : Prop :=
  ∃ t, r = .next t ∧ t.mode = .halted e ∧ OnlyChanges [.mode] s t

/-! ## Invariants -/

/-- An error record that says what the spec lets it say (10 R42, 60 R220). -/
def FatalError.Truthful (p : Params) (e : FatalError) : Prop :=
  match e with
  | .unknownOpcode w _ => decode w = none
  | .stackOverflow => True
  | .stackUnderflow => True
  | .addressOutOfRange a _ => 0x1000 ≤ a ∧ a ≤ 0xFFFF
  | .oddTarget t _ => p.oddPc = .fault ∧ t.toNat % 2 = 1
  | .operandOutOfRange b _ => 0xF < b.toNat

/-- A latched error, if there is one, is truthful. -/
def State.LatchedTruthful (s : State) : Prop := ∀ e, s.mode = .halted e → e.Truthful s.params

/-- The invariant of every state a run reaches: memory is canonical; `pc` never exceeds 0x1002 (10 R26), because no return
address exceeds 0x1000; stack slot 0 is never written (10 R31); a latched error is truthful. -/
structure State.Inv (s : State) : Prop where
  memWf      : Memory.wf s.params s.mem = true
  pcBound    : s.pc.toNat ≤ 0x1002
  stackBound : ∀ j : Nibble, s.stack[j].toNat ≤ 0x1000
  slotZero   : s.stack[(0 : Nibble)] = 0#16
  latched    : s.LatchedTruthful

/-- Under ODD_PC = Fault, `pc` and every return address are even (10 R26, 20 R59). -/
def State.EvenPc (s : State) : Prop :=
  s.params.oddPc = .fault → s.pc.toNat % 2 = 0 ∧ ∀ j : Nibble, s.stack[j].toNat % 2 = 0

end Sys2Proof.Machine

/-! ## Who may write what (10 R22, R23, R38, 20 R52, 40 R104) -/

/-- The instructions that may write the general register `r`: as a destination (10 R22) or as the flag (10 R27). Fx0A writes
its register when it resumes, which is no dispatch of an instruction. -/
def Sys2Proof.Instr.writesV (i : Sys2Proof.Instr) (r : Sys2Proof.Nibble) : Bool :=
  match i with
  | .ldByte x _ | .addByte x _ | .ldReg x _ | .orReg x _ | .andReg x _ | .xorReg x _ | .rnd x _ | .ldVxDt x => r == x
  | .addReg x _ | .sub x _ | .shr x _ | .subn x _ | .shl x _ => r == x || r == Sys2Proof.Machine.vf
  | .drw _ _ _ => r == Sys2Proof.Machine.vf
  | .ldVxMem x => decide (r ≤ x)
  | .cls | .ret | .sys _ | .jp _ | .call _ | .seByte _ _ | .sneByte _ _ | .seReg _ _ | .sneReg _ _ | .ldI _ | .jpV0 _
  | .skp _ | .sknp _ | .ldVxK _ | .ldDtVx _ | .ldStVx _ | .addIVx _ | .ldFVx _ | .ldBVx _ | .ldMemVx _ => false
end

