-- ==== Sys2Proof/Certificates/Slice0/Obligations.lean ====
section
/-! DEFINITION. The statements for the provers, in the order of OBLIGATIONS.json. `exec` runs an instruction in a state whose
`pc` is already `fetch_pc + 2` (spec/40_execution_cycle.md R101, R104), so `s.pc - 2#16` is the address it was fetched from.
A docstring names the spec's own decisions (D<n> of 92_eei_decisions.md) or inferences a statement rests on, and the log
entry that takes them over. -/

open Sys2Proof Sys2Proof.Machine

/-! ## Vocabulary of the result statements -/

/-- The instruction answers a next state that meets `post`. -/
def Sys2Proof.Machine.Completes (i : Instr) (s : State) (post : State → Prop) : Prop :=
  ∃ t, exec i s = .next t ∧ post t

/-- The instruction writes `V[x]`, whose new value meets `value`, and changes nothing else. -/
def Sys2Proof.Machine.WritesReg (i : Instr) (s : State) (x : Nibble) (value : Byte → Prop) : Prop :=
  Completes i s fun t => value (t.readV x) ∧ RegsKeptBut x s t ∧ OnlyChanges [.v] s t

/-- The instruction writes VF, and `V[x]` where `x` is not F, and changes nothing else: where `x` is F the flag is what VF
holds (42 R152). -/
def Sys2Proof.Machine.WritesRegAndFlag (i : Instr) (s : State) (x : Nibble) (value : Byte → Prop) (flag : Nat) : Prop :=
  Completes i s fun t =>
    (x ≠ vf → value (t.readV x)) ∧ (t.readV vf).toNat = flag ∧ (∀ r, r ≠ x → r ≠ vf → t.readV r = s.readV r) ∧
    OnlyChanges [.v] s t

/-- The instruction skips the next word exactly where `cond` holds, and changes nothing but `pc` (41 R124). -/
def Sys2Proof.Machine.SkipsWhen (i : Instr) (s : State) (cond : Prop) : Prop :=
  Completes i s fun t => (cond → t.pc = s.pc + 2#16) ∧ (¬ cond → t.pc = s.pc) ∧ OnlyChanges [.pc] s t

/-! ## Encoding -/

/-- Words written out from the patterns of 30 R78 decode to the instructions they stand for (a sanity statement). -/
def Obligations.WrittenWordsDecode : Prop :=
  decode 0b0000000011100000#16 = some .cls ∧
  decode 0b0000000011101110#16 = some .ret ∧
  decode 0b0000000011100001#16 = some (.sys 0x0E1#12) ∧
  decode 0b0001001000110100#16 = some (.jp 0x234#12) ∧
  decode 0b0010000100100011#16 = some (.call 0x123#12) ∧
  decode 0b0011001101000010#16 = some (.seByte 3 0x42#8) ∧
  decode 0b1000010001010111#16 = some (.subn 4 5) ∧
  decode 0b1101000100100101#16 = some (.drw 1 2 5) ∧
  decode 0b1110000010100001#16 = some (.sknp 0) ∧
  decode 0b1111001001100101#16 = some (.ldVxMem 2) ∧
  decode 0b0101000000000001#16 = none

/-- Decoding an encoded well-formed instruction gives it back, every operand at every value the formats of 30 R76 admit: no
bit of an encoding is dropped. -/
def Obligations.DecodeOfEncodeIsIdentity : Prop := ∀ i : Instr, i.wf = true → decode (encode i) = some i

/-- Every word that decodes has one meaning, and encoding it gives the word back (30 R87, R88: a decoder discriminates on
exactly the listed bits). R88 is marked derived by the spec. -/
def Obligations.EncodeOfDecodeIsIdentity : Prop := ∀ (w : Word) (i : Instr), decode w = some i → i.wf = true ∧ encode i = w

/-- The unknown words are exactly the five classes of 30 R86 (marked derived by the spec, from R80 to R85). -/
def Obligations.UnknownWordsAreExactlyTheListedClasses : Prop :=
  ∀ w : Word, decode w = none ↔
    (w.toNat / 4096 = 5 ∧ w.toNat % 16 ≠ 0) ∨
    (w.toNat / 4096 = 9 ∧ w.toNat % 16 ≠ 0) ∨
    (w.toNat / 4096 = 8 ∧ w.toNat % 16 ∈ [0x8, 0x9, 0xA, 0xB, 0xC, 0xD, 0xF]) ∨
    (w.toNat / 4096 = 14 ∧ w.toNat % 256 ∉ [0x9E, 0xA1]) ∨
    (w.toNat / 4096 = 15 ∧ w.toNat % 256 ∉ [0x07, 0x0A, 0x15, 0x18, 0x1E, 0x29, 0x33, 0x55, 0x65])

/-- Family 8 selects by N4 (30 R83), families E and F by the low byte (R84, R85); every other value of the selector is
unknown. -/
def Obligations.SubopcodesSelectInFamiliesEightEAndF : Prop :=
  (∀ x y n : Nibble, decode (BitVec.ofNat 16 (0x8000 + x.val * 0x100 + y.val * 0x10 + n.val)) =
    if n = 0x0 then some (.ldReg x y) else if n = 0x1 then some (.orReg x y) else if n = 0x2 then some (.andReg x y)
    else if n = 0x3 then some (.xorReg x y) else if n = 0x4 then some (.addReg x y) else if n = 0x5 then some (.sub x y)
    else if n = 0x6 then some (.shr x y) else if n = 0x7 then some (.subn x y) else if n = 0xE then some (.shl x y)
    else none) ∧
  (∀ (x : Nibble) (kk : Byte), decode (BitVec.ofNat 16 (0xE000 + x.val * 0x100 + kk.toNat)) =
    if kk = 0x9E#8 then some (.skp x) else if kk = 0xA1#8 then some (.sknp x) else none) ∧
  (∀ (x : Nibble) (kk : Byte), decode (BitVec.ofNat 16 (0xF000 + x.val * 0x100 + kk.toNat)) =
    if kk = 0x07#8 then some (.ldVxDt x) else if kk = 0x0A#8 then some (.ldVxK x) else if kk = 0x15#8 then some (.ldDtVx x)
    else if kk = 0x18#8 then some (.ldStVx x) else if kk = 0x1E#8 then some (.addIVx x)
    else if kk = 0x29#8 then some (.ldFVx x) else if kk = 0x33#8 then some (.ldBVx x)
    else if kk = 0x55#8 then some (.ldMemVx x) else if kk = 0x65#8 then some (.ldVxMem x) else none)

/-- In family 0 the two exact words come first and every other word is SYS (30 R80, settled by conflict C1). -/
def Obligations.FamilyZeroIsClsRetOrSys : Prop :=
  ∀ nnn : Addr12, decode (nnn.setWidth 16) =
    if nnn = 0x0E0#12 then some .cls else if nnn = 0x0EE#12 then some .ret else some (.sys nnn)

/-- In families 1, 2, 3, 4, 6, 7, A, B, C and D the top nibble alone selects the instruction, and every word is legal
(30 R81), with its fields where 30 R76 puts them. -/
def Obligations.TopNibbleAloneSelectsInTenFamilies : Prop :=
  (∀ nnn : Addr12,
    decode (0x1#4 ++ nnn) = some (.jp nnn) ∧ decode (0x2#4 ++ nnn) = some (.call nnn) ∧
    decode (0xA#4 ++ nnn) = some (.ldI nnn) ∧ decode (0xB#4 ++ nnn) = some (.jpV0 nnn)) ∧
  (∀ (x : Nibble) (kk : Byte),
    decode (0x3#4 ++ BitVec.ofFin (w := 4) x ++ kk) = some (.seByte x kk) ∧
    decode (0x4#4 ++ BitVec.ofFin (w := 4) x ++ kk) = some (.sneByte x kk) ∧
    decode (0x6#4 ++ BitVec.ofFin (w := 4) x ++ kk) = some (.ldByte x kk) ∧
    decode (0x7#4 ++ BitVec.ofFin (w := 4) x ++ kk) = some (.addByte x kk) ∧
    decode (0xC#4 ++ BitVec.ofFin (w := 4) x ++ kk) = some (.rnd x kk)) ∧
  (∀ x y n : Nibble,
    decode (0xD#4 ++ BitVec.ofFin (w := 4) x ++ BitVec.ofFin (w := 4) y ++ BitVec.ofFin (w := 4) n) = some (.drw x y n))

/-! ## The step -/

/-- A running step whose two bytes are in memory and decode runs exactly that instruction, with `pc` moved past the word
(40 R101, R104). The advance before dispatch is the source's; the range premise is decision D7's (log 6). -/
def Obligations.RunningStepExecutesTheDecodedInstruction : Prop :=
  ∀ (s : State) (i : Instr), s.mode = .running → s.pc.toNat + 1 ≤ 0xFFF →
    decode (joinBytes (s.readByte s.pc.toNat) (s.readByte (s.pc.toNat + 1))) = some i →
    step s = exec i { s with pc := s.pc + 2#16 }

/-- The fetch reads the bytes at `pc` and `pc + 1`, the first as bits 15:8 and the second as bits 7:0 (20 R57), with the
source's worked example. -/
def Obligations.FetchIsBigEndian : Prop :=
  (∀ s : State, s.fetchWord.extractLsb 15 8 = s.readByte s.pc.toNat ∧
    s.fetchWord.extractLsb 7 0 = s.readByte (s.pc.toNat + 1)) ∧
  (∀ s : State, s.mode = .running → s.pc = 2#16 → s.readByte 2 = 0xAB#8 → s.readByte 3 = 0xCD#8 →
    s.fetchWord = 0xABCD#16 ∧ ∃ t, step s = .next t ∧ t.pc = 4#16)

/-- A fetch that reaches past 0xFFF halts the core with the first such address and leaves `pc` where it was (decisions D7
and D27; log 6). -/
def Obligations.FetchPastMemoryHalts : Prop :=
  ∀ s : State, s.mode = .running → 0xFFF < s.pc.toNat + 1 →
    StopsWith (.addressOutOfRange (if s.pc.toNat ≤ 0xFFF then 0x1000 else s.pc.toNat) s.pc) s (step s)

/-- An unknown word halts the core with the word and the address it came from; `pc` keeps the fetch advance and nothing else
changes (40 R103). 0x5001 is such a word. That the error is a next state in mode `halted`, with outcome Fault, is decision D13
(log 12); the premise that the fetch succeeds is D7's (log 6). -/
def Obligations.UnknownOpcodeHalts : Prop :=
  (∀ s : State, s.mode = .running → s.pc.toNat + 1 ≤ 0xFFF → decode s.fetchWord = none →
    ∃ t, step s = .next t ∧ t.pc = s.pc + 2#16 ∧ t.mode = .halted (.unknownOpcode s.fetchWord s.pc) ∧
      t.outcome = .fault (.unknownOpcode s.fetchWord s.pc) ∧ OnlyChanges [.pc, .mode] s t) ∧
  decode 0x5001#16 = none

/-- A halted core answers every step with the same state and the same fault, and no transaction but reset ends the halt or
changes anything but the keypad (decision D13; log 12). A load is out of the way once a step has been issued (decision D23;
log 18). -/
def Obligations.HaltedUntilReset : Prop :=
  (∀ (s : State) (e : FatalError) (k : Nat), s.mode = .halted e →
    Host.Core.run Sys2Proof.core k s = .next s ∧ s.outcome = .fault e) ∧
  (∀ (txs : List Transaction) (u u' : Session) (e : FatalError), Transaction.reset ∉ txs → u.stepped = true →
    u.state.mode = .halted e → transactAll txs u = .next u' →
    u'.state.mode = .halted e ∧ u'.stepped = true ∧ OnlyChanges [.key] u.state u'.state)

/-- The step of a waiting core (40 R106, decision D12; log 11): where some key is pressed now and was not in the snapshot, it
resumes with one such key in `V[x]` and fetches nothing; where there is none, it only takes a new snapshot. -/
def Obligations.WaitingStepFollowsTheKeypad : Prop :=
  ∀ (s : State) (x : Nibble) (snap : Vector Bool 16), s.mode = .waitingForKey x snap →
    ((∃ k : Nibble, s.key[k] = true ∧ snap[k] = false) →
      ∃ (t : State) (k : Nibble), step s = .next t ∧ s.key[k] = true ∧ snap[k] = false ∧ (t.readV x).toNat = k.val ∧
        t.mode = .running ∧ t.outcome = .executed ∧ RegsKeptBut x s t ∧ OnlyChanges [.v, .mode, .keyRand] s t) ∧
    ((∀ k : Nibble, s.key[k] = true → snap[k] = true) →
      ∃ t, step s = .next t ∧ t.mode = .waitingForKey x s.key ∧ t.outcome = .waiting ∧ OnlyChanges [.mode] s t)

/-- KeyChoice may return any newly pressed key (40 R106, decision D12; log 11): for each there is a draw that selects it. -/
def Obligations.EveryNewlyPressedKeyCanBeChosen : Prop :=
  ∀ (s : State) (x k : Nibble) (snap : Vector Bool 16) (r : Byte), s.mode = .waitingForKey x snap →
    s.key[k] = true → snap[k] = false →
    ∃ (kc : Nat) (t : State), stepWith r kc s = .next t ∧ (t.readV x).toNat = k.val ∧ t.mode = .running

/-- Every instruction and every step answers a next state: the errors of 60 R220 are entered (R222, decision D13; log 12), and
nothing is refused. -/
def Obligations.EveryStepAnswersANextState : Prop :=
  (∀ (i : Instr) (s : State), ∃ t, exec i s = .next t) ∧ (∀ s : State, ∃ t, step s = .next t)

/-- Every error is precise (60 R221, decision D13; log 12): the state is the state before the step with the error latched, and
with the fetch advance where the fetch did not itself raise (D27; log 6). -/
def Obligations.EveryErrorIsPrecise : Prop :=
  ∀ (s t : State) (e : FatalError), s.mode = .running → step s = .next t → t.mode = .halted e →
    (s.pc.toNat + 1 ≤ 0xFFF → t.pc = s.pc + 2#16) ∧ (0xFFF < s.pc.toNat + 1 → t.pc = s.pc) ∧
    OnlyChanges [.pc, .mode] s t

/-- A step that executes no RND ignores the random byte (60 R237, decision D21; log 17), and a step that does not wait for a
key ignores the key-choice draw (40 R100, decision D12; log 11). -/
def Obligations.StepsIgnoreTheDrawsTheyDoNotUse : Prop :=
  (∀ (s : State) (r r' : Byte) (kc : Nat),
    ¬ (s.mode = .running ∧ s.pc.toNat + 1 ≤ 0xFFF ∧ ∃ x kk, decode s.fetchWord = some (.rnd x kk)) →
    stepWith r kc s = stepWith r' kc s) ∧
  (∀ (s : State) (r : Byte) (kc kc' : Nat), (∀ x snap, s.mode ≠ .waitingForKey x snap) →
    stepWith r kc s = stepWith r kc' s)

/-- `step` is the step transaction of 40 R100 given the draws its own sources hold next: the two agree on all the spec's
state (the model's draw sources: log 11, log 17). -/
def Obligations.StepIsTheTransactionWithItsOwnDraws : Prop :=
  ∀ s t : State, step s = .next t →
    ∃ t', stepWith s.rand.next.1 s.keyRand.next.1 s = .next t' ∧ OnlyChanges [.rand, .keyRand] t t'

/-! ## Who writes what, over every instruction -/

/-- An instruction changes no general register but those 10 R22 and R27 list for it (`Instr.writesV`; R22 is marked derived
by the spec). -/
def Obligations.OnlyListedInstructionsWriteARegister : Prop :=
  ∀ (i : Instr) (s t : State) (r : Nibble), exec i s = .next t → i.writesV r = false → t.readV r = s.readV r

/-- Only CALL and RET reach the stack (10 R29): every other instruction leaves `sp` and all sixteen slots alone, and its
effect does not depend on them. -/
def Obligations.OnlyCallAndRetReachTheStack : Prop :=
  ∀ (i : Instr) (s t : State), i ≠ .ret → (∀ nnn, i ≠ .call nnn) → exec i s = .next t →
    t.sp = s.sp ∧ (∀ j : Nibble, t.stack[j] = s.stack[j]) ∧
    ∀ (sp : Nibble) (stack : Vector Word 16),
      exec i { s with sp := sp, stack := stack } = .next { t with sp := sp, stack := stack }

/-- The core never writes the keypad and reads it only in SKP, SKNP and a wait for a key; the host writes one key at a time
(10 R39, 60 R235). That Fx0A reads the keypad when it executes, for its snapshot, is decision D12 (log 11). -/
def Obligations.TheCoreOnlyReadsTheKeypad : Prop :=
  (∀ s t : State, step s = .next t → ∀ k : Nibble, t.key[k] = s.key[k]) ∧
  (∀ (i : Instr) (s t : State) (keys : Vector Bool 16), (∀ x, i ≠ .skp x ∧ i ≠ .sknp x ∧ i ≠ .ldVxK x) →
    exec i s = .next t → exec i { s with key := keys } = .next { t with key := keys }) ∧
  (∀ (k : Nibble) (p : Bool) (s : State), (keyWriteTx k p s).key[k] = p ∧
    (∀ j : Nibble, j ≠ k → (keyWriteTx k p s).key[j] = s.key[j]) ∧ OnlyChanges [.key] s (keyWriteTx k p s))

/-- Only LD B and LD [I] write memory, and only their own bytes (20 R52). -/
def Obligations.OnlyBcdAndBlockStoreWriteMemory : Prop :=
  ∀ (i : Instr) (s t : State), exec i s = .next t →
    ((∀ x, i ≠ .ldBVx x ∧ i ≠ .ldMemVx x) → ∀ a, t.readByte a = s.readByte a) ∧
    (∀ x, i = .ldBVx x → MemKeptOutside s.i.toNat 3 s t) ∧
    (∀ x, i = .ldMemVx x → MemKeptOutside s.i.toNat (x.val + 1) s t)

/-- The display changes by CLS and DRW only (10 R38), `I` by LD I, ADD I and LD F only (R23), each timer by its own load
only (R35, R36), the mode by Fx0A and an error only (40 R104), and the parameters never. R38 rests on conflict C17, R23 on
decisions D7 and D9, the parameters are the model's own (log 19). -/
def Obligations.OtherStateIsWrittenOnlyByItsInstructions : Prop :=
  ∀ (i : Instr) (s t : State), exec i s = .next t →
    (i ≠ .cls → (∀ x y n, i ≠ .drw x y n) → ∀ c : Fin 2048, t.disp[c] = s.disp[c]) ∧
    ((∀ nnn x, i ≠ .ldI nnn ∧ i ≠ .addIVx x ∧ i ≠ .ldFVx x) → t.i = s.i) ∧
    ((∀ x, i ≠ .ldDtVx x) → t.dt = s.dt) ∧ ((∀ x, i ≠ .ldStVx x) → t.st = s.st) ∧
    ((∀ x, i ≠ .ldVxK x) → (∀ e, t.mode ≠ .halted e) → t.mode = s.mode) ∧
    t.params = s.params

/-! ## Register loads and the ALU -/

/-- LD Vx, byte and ADD Vx, byte (42 R140, R141): the value, no flag. -/
def Obligations.ByteLoadAndByteAdd : Prop :=
  ∀ (x : Nibble) (kk : Byte) (s : State),
    WritesReg (.ldByte x kk) s x (fun v => v = kk) ∧
    WritesReg (.addByte x kk) s x (fun v => v.toNat = ((s.readV x).toNat + kk.toNat) % 256)

/-- LD Vx, Vy; OR; AND; XOR (42 R142 to R145): the value, bit by bit, and no flag. -/
def Obligations.RegisterMoveAndLogic : Prop :=
  ∀ (x y : Nibble) (s : State),
    WritesReg (.ldReg x y) s x (fun v => v = s.readV y) ∧
    WritesReg (.orReg x y) s x
      (fun v => ∀ k < 8, v.getLsbD k = ((s.readV x).getLsbD k || (s.readV y).getLsbD k)) ∧
    WritesReg (.andReg x y) s x
      (fun v => ∀ k < 8, v.getLsbD k = ((s.readV x).getLsbD k && (s.readV y).getLsbD k)) ∧
    WritesReg (.xorReg x y) s x
      (fun v => ∀ k < 8, v.getLsbD k = ((s.readV x).getLsbD k ^^ (s.readV y).getLsbD k))

/-- ADD Vx, Vy (42 R146): the sum modulo 256, and VF the carry. That VF is written last is decision D8 (log 7). -/
def Obligations.AddSetsCarry : Prop :=
  ∀ (x y : Nibble) (s : State),
    WritesRegAndFlag (.addReg x y) s x (fun v => v.toNat = ((s.readV x).toNat + (s.readV y).toNat) % 256)
      (if (s.readV x).toNat + (s.readV y).toNat > 255 then 1 else 0)

/-- SUB and SUBN (42 R147, R149): the difference modulo 256, and VF 1 where the minuend is strictly greater. That VF is
written last is decision D8 (log 7). -/
def Obligations.SubtractionsSetStrictlyGreater : Prop :=
  ∀ (x y : Nibble) (s : State),
    WritesRegAndFlag (.sub x y) s x (fun v => (v.toNat : Int) = ((s.readV x).toNat - (s.readV y).toNat : Int) % 256)
      (if (s.readV x).toNat > (s.readV y).toNat then 1 else 0) ∧
    WritesRegAndFlag (.subn x y) s x (fun v => (v.toNat : Int) = ((s.readV y).toNat - (s.readV x).toNat : Int) % 256)
      (if (s.readV y).toNat > (s.readV x).toNat then 1 else 0)

/-- SHR and SHL (42 R148, R150): Vx by one bit, VF the bit shifted out, `y` ignored. That VF is written last is decision D8
(log 7). -/
def Obligations.ShiftsSetTheBitShiftedOut : Prop :=
  ∀ (x y : Nibble) (s : State),
    WritesRegAndFlag (.shr x y) s x (fun v => v.toNat = (s.readV x).toNat / 2) ((s.readV x).toNat % 2) ∧
    WritesRegAndFlag (.shl x y) s x (fun v => v.toNat = (s.readV x).toNat * 2 % 256) ((s.readV x).toNat / 128)

/-- RND (42 R151, decision D21; log 17): exactly one byte of the source, scripted or free, masked by `kk`. -/
def Obligations.RandomByteIsMasked : Prop :=
  ∀ (x : Nibble) (kk : Byte) (s : State), ∃ (t : State) (r : Byte),
    exec (.rnd x kk) s = .next t ∧ t.readV x = r &&& kk ∧ RegsKeptBut x s t ∧ OnlyChanges [.v, .rand] s t ∧
    (∀ b rest, s.rand.script = b :: rest → r = b ∧ t.rand.script = rest ∧ t.rand.drawn = s.rand.drawn) ∧
    (s.rand.script = [] → t.rand.script = [] ∧ t.rand.drawn = s.rand.drawn + 1)

/-! ## Control flow -/

/-- SYS changes nothing (41 R121), whatever `nnn` is. -/
def Obligations.SysHasNoEffect : Prop :=
  ∀ (nnn : Addr12) (s : State), Completes (.sys nnn) s fun t => OnlyChanges [] s t

/-- SE Vx, byte and SNE Vx, byte (41 R125, R126). -/
def Obligations.SkipsOnByte : Prop :=
  ∀ (x : Nibble) (kk : Byte) (s : State),
    SkipsWhen (.seByte x kk) s (s.readV x = kk) ∧ SkipsWhen (.sneByte x kk) s (s.readV x ≠ kk)

/-- SE Vx, Vy and SNE Vx, Vy (41 R127, R128; their patterns are settled by conflict C2). -/
def Obligations.SkipsOnRegister : Prop :=
  ∀ (x y : Nibble) (s : State),
    SkipsWhen (.seReg x y) s (s.readV x = s.readV y) ∧ SkipsWhen (.sneReg x y) s (s.readV x ≠ s.readV y)

/-- SKP and SKNP (44 R192, R193): on the key that Vx names; a Vx above 0xF halts the core with nothing written (decision D5;
log 4). -/
def Obligations.SkipsOnKey : Prop :=
  ∀ (x : Nibble) (s : State),
    (∀ k : Nibble, (s.readV x).toNat = k.val →
      SkipsWhen (.skp x) s (s.key[k] = true) ∧ SkipsWhen (.sknp x) s (s.key[k] = false)) ∧
    (0xF < (s.readV x).toNat →
      StopsWith (.operandOutOfRange (s.readV x) (s.pc - 2#16)) s (exec (.skp x) s) ∧
      StopsWith (.operandOutOfRange (s.readV x) (s.pc - 2#16)) s (exec (.sknp x) s))

/-- JP and JP V0 (41 R122, R129): the 12-bit target to `pc`; under ODD_PC = Fault an odd one halts the core (decision D6;
log 5). The mask of JP V0 is decision D20 (log 16). -/
def Obligations.JumpsReachTheirTarget : Prop :=
  ∀ (nnn : Addr12) (s : State),
    (s.params.oddPc = .allow ∨ nnn.toNat % 2 = 0 →
      Completes (.jp nnn) s fun t => t.pc.toNat = nnn.toNat ∧ OnlyChanges [.pc] s t) ∧
    (s.params.oddPc = .fault → nnn.toNat % 2 = 1 →
      StopsWith (.oddTarget (nnn.setWidth 16) (s.pc - 2#16)) s (exec (.jp nnn) s)) ∧
    (s.params.oddPc = .allow ∨ (nnn.toNat + (s.readV 0).toNat) % 2 = 0 →
      Completes (.jpV0 nnn) s fun t =>
        t.pc.toNat = (nnn.toNat + (s.readV 0).toNat) % 4096 ∧ OnlyChanges [.pc] s t) ∧
    (s.params.oddPc = .fault → (nnn.toNat + (s.readV 0).toNat) % 2 = 1 →
      StopsWith (.oddTarget (BitVec.ofNat 16 ((nnn.toNat + (s.readV 0).toNat) % 4096)) (s.pc - 2#16)) s
        (exec (.jpV0 nnn) s))

/-- CALL (41 R123): the advanced `pc` to the next slot, the target to `pc`; StackOverflow is checked before OddTarget
(decisions D6, D14, D15; log 5, 13, 14). -/
def Obligations.CallPushesTheReturnAddress : Prop :=
  ∀ (nnn : Addr12) (s : State),
    (s.sp.val < 15 → s.params.oddPc = .allow ∨ nnn.toNat % 2 = 0 →
      Completes (.call nnn) s fun t => t.pc.toNat = nnn.toNat ∧ t.sp.val = s.sp.val + 1 ∧ t.stack[t.sp] = s.pc ∧
        (∀ j : Nibble, j ≠ t.sp → t.stack[j] = s.stack[j]) ∧ OnlyChanges [.pc, .sp, .stack] s t) ∧
    (s.sp.val = 15 → StopsWith .stackOverflow s (exec (.call nnn) s)) ∧
    (s.sp.val < 15 → s.params.oddPc = .fault → nnn.toNat % 2 = 1 →
      StopsWith (.oddTarget (nnn.setWidth 16) (s.pc - 2#16)) s (exec (.call nnn) s))

/-- RET (41 R120, 10 R34): the popped slot to `pc`, unmasked, the slot kept (decisions D15, D28; log 14). -/
def Obligations.RetPopsTheReturnAddress : Prop :=
  ∀ s : State,
    (0 < s.sp.val → Completes .ret s fun t =>
      t.pc = s.stack[s.sp] ∧ t.sp.val + 1 = s.sp.val ∧ OnlyChanges [.pc, .sp] s t) ∧
    (s.sp.val = 0 → StopsWith .stackUnderflow s (exec .ret s))

/-- The stack never wraps silently (10 R32): a push at `sp` 15 and a pop at `sp` 0 are the two stack errors. That each is a
next state in mode `halted` with `sp` kept is decision D13 (40 R109, 60 R221; log 12). -/
def Obligations.StackErrorsAreDetected : Prop :=
  ∀ s : State,
    (s.sp.val = 15 → ∀ nnn, ∃ t, exec (.call nnn) s = .next t ∧ t.mode = .halted .stackOverflow ∧ t.sp = s.sp) ∧
    (s.sp.val = 0 → ∃ t, exec .ret s = .next t ∧ t.mode = .halted .stackUnderflow ∧ t.sp = s.sp)

/-- A RET that follows a CALL, with the stack as the CALL left it, continues after the CALL and leaves `sp` as it was
(from R120 and R123; decision D15, log 14). -/
def Obligations.RetAfterCallReturns : Prop :=
  ∀ (nnn : Addr12) (s t u : State), s.sp.val < 15 → s.mode = .running → exec (.call nnn) s = .next t →
    t.mode = .running → u.sp = t.sp → (∀ j : Nibble, u.stack[j] = t.stack[j]) →
    Completes .ret u fun v => v.pc = s.pc ∧ v.sp = s.sp

/-! ## The address register and memory -/

/-- LD I, addr (43 R170): `I` becomes the 12-bit address and nothing else changes. -/
def Obligations.LoadIndex : Prop :=
  ∀ (nnn : Addr12) (s : State), Completes (.ldI nnn) s fun t => t.i.toNat = nnn.toNat ∧ OnlyChanges [.i] s t

/-- ADD I, Vx (43 R171): modulo 2^16, no flag, no error (decision D9; log 8). LD F, Vx (R172): the glyph's address under the
state's FONT_BASE, whatever it is; a Vx above 0xF halts the core (decisions D3, D4; log 3, 4). -/
def Obligations.IndexAddAndFontAddress : Prop :=
  ∀ (x : Nibble) (s : State),
    (Completes (.addIVx x) s fun t => t.i.toNat = (s.i.toNat + (s.readV x).toNat) % 65536 ∧ OnlyChanges [.i] s t) ∧
    ((s.readV x).toNat ≤ 0xF → Completes (.ldFVx x) s fun t =>
      t.i.toNat = s.params.fontBase.val + 5 * (s.readV x).toNat ∧ OnlyChanges [.i] s t) ∧
    (0xF < (s.readV x).toNat →
      StopsWith (.operandOutOfRange (s.readV x) (s.pc - 2#16)) s (exec (.ldFVx x) s))

/-- LD B, Vx (43 R173): hundreds, tens and ones at I, I+1, I+2, every other byte kept; past 0xFFF nothing is written
(decision D7; log 6). The memory premise is the invariant's (`EveryStepKeepsTheInvariant`). -/
def Obligations.BcdStoresThreeDigits : Prop :=
  ∀ (x : Nibble) (s : State), Memory.wf s.params s.mem = true →
    (s.i.toNat + 2 ≤ 0xFFF → Completes (.ldBVx x) s fun t =>
      (t.readByte s.i.toNat).toNat = (s.readV x).toNat / 100 ∧
      (t.readByte (s.i.toNat + 1)).toNat = (s.readV x).toNat / 10 % 10 ∧
      (t.readByte (s.i.toNat + 2)).toNat = (s.readV x).toNat % 10 ∧
      MemKeptOutside s.i.toNat 3 s t ∧ OnlyChanges [.mem] s t) ∧
    (0xFFF < s.i.toNat + 2 →
      StopsWith (.addressOutOfRange (max s.i.toNat 0x1000) (s.pc - 2#16)) s (exec (.ldBVx x) s))

/-- LD [I], Vx (43 R174): V0 to Vx inclusive at I onwards, every other byte and I kept (decision D10; log 9); past 0xFFF
nothing is written (D7; log 6). -/
def Obligations.BlockStoreWritesRegisters : Prop :=
  ∀ (x : Nibble) (s : State), Memory.wf s.params s.mem = true →
    (s.i.toNat + x.val ≤ 0xFFF → Completes (.ldMemVx x) s fun t =>
      (∀ r : Nibble, r ≤ x → t.readByte (s.i.toNat + r.val) = s.readV r) ∧
      MemKeptOutside s.i.toNat (x.val + 1) s t ∧ OnlyChanges [.mem] s t) ∧
    (0xFFF < s.i.toNat + x.val →
      StopsWith (.addressOutOfRange (max s.i.toNat 0x1000) (s.pc - 2#16)) s (exec (.ldMemVx x) s))

/-- LD Vx, [I] (43 R175): V0 to Vx inclusive from I onwards, every other register and I kept (decision D10; log 9); past
0xFFF nothing is loaded (D7; log 6). -/
def Obligations.BlockLoadReadsRegisters : Prop :=
  ∀ (x : Nibble) (s : State),
    (s.i.toNat + x.val ≤ 0xFFF → Completes (.ldVxMem x) s fun t =>
      (∀ r : Nibble, r ≤ x → t.readV r = s.readByte (s.i.toNat + r.val)) ∧
      (∀ r : Nibble, x < r → t.readV r = s.readV r) ∧ OnlyChanges [.v] s t) ∧
    (0xFFF < s.i.toNat + x.val →
      StopsWith (.addressOutOfRange (max s.i.toNat 0x1000) (s.pc - 2#16)) s (exec (.ldVxMem x) s))

/-- The source's round trip: registers stored at I and loaded back from the same I, whatever happened to the registers in
between, hold their old values (43 R174, R175; I is kept by decision D10, log 9). -/
def Obligations.StoreThenLoadRestoresRegisters : Prop :=
  ∀ (x : Nibble) (s t u : State), Memory.wf s.params s.mem = true → s.i.toNat + x.val ≤ 0xFFF →
    exec (.ldMemVx x) s = .next t → OnlyChanges [.v, .pc] t u →
    Completes (.ldVxMem x) u fun w =>
      (∀ r : Nibble, r ≤ x → w.readV r = s.readV r) ∧ (∀ r : Nibble, x < r → w.readV r = u.readV r)

/-- A byte that LD [I] stores at the next instruction's address is what the next fetch reads (20 R67, marked derived by the
spec; D7, log 6). -/
def Obligations.StoresReachTheNextFetch : Prop :=
  ∀ (x r : Nibble) (s t : State), Memory.wf s.params s.mem = true → s.i.toNat + x.val ≤ 0xFFF → r.val + 1 ≤ x.val →
    s.pc.toNat = s.i.toNat + r.val → exec (.ldMemVx x) s = .next t →
    t.fetchWord = joinBytes (s.readV r) (s.readV (r + 1))

/-- Two canonical memories that read alike at every address are the same list, so equal memories are equal data (the model's
representation; log 21). -/
def Obligations.CanonicalMemoriesThatReadAlikeAreEqual : Prop :=
  ∀ (p : Params) (m m' : List Host.Cell), Memory.wf p m = true → Memory.wf p m' = true →
    (∀ a < 4096, Memory.read p m a = Memory.read p m' a) → m = m'

/-! ## The display -/

/-- CLS sets all 2048 cells false, changes nothing else, and a second CLS changes nothing (44 R190). -/
def Obligations.ClsClearsTheDisplay : Prop :=
  ∀ s : State, Completes .cls s fun t =>
    (∀ c : Fin 2048, t.disp[c] = false) ∧ OnlyChanges [.disp] s t ∧ Completes .cls t fun u => OnlyChanges [] t u

/-- DRW (44 R191): every pixel is the old one XOR the wrapped sprite's, VF is 1 exactly where some covered pixel was lit, and
nothing else changes; `x` or `y` may be F, and `n = 0` draws nothing. A sprite past 0xFFF halts the core with nothing drawn.
Bit 7 leftmost is decision D11 (log 10), the range error D7 (log 6), the half-open range conflict C7. -/
def Obligations.DrawXorsTheWrappedSprite : Prop :=
  ∀ (x y n : Nibble) (s : State),
    (n.val = 0 ∨ s.i.toNat + n.val ≤ 0x1000 → Completes (.drw x y n) s fun t =>
      (∀ (cx : Fin 64) (cy : Fin 32),
        t.pixelAt cx cy = true ↔ ¬ (s.pixelAt cx cy = true ↔ SpriteCovers x y n s cx cy)) ∧
      (t.readV vf = 1#8 ∨ t.readV vf = 0#8) ∧
      (t.readV vf = 1#8 ↔ ∃ cx cy, SpriteCovers x y n s cx cy ∧ s.pixelAt cx cy = true) ∧
      RegsKeptBut vf s t ∧ OnlyChanges [.v, .disp] s t) ∧
    (0 < n.val → 0x1000 < s.i.toNat + n.val →
      StopsWith (.addressOutOfRange (max s.i.toNat 0x1000) (s.pc - 2#16)) s (exec (.drw x y n) s))

/-- Drawing the same sprite twice at coordinates that VF does not hold restores the display (from R191; decision D7, log 6). -/
def Obligations.DrawingTwiceRestoresTheDisplay : Prop :=
  ∀ (x y n : Nibble) (s : State), x ≠ vf → y ≠ vf → n.val = 0 ∨ s.i.toNat + n.val ≤ 0x1000 →
    Completes (.drw x y n) s fun t => Completes (.drw x y n) t fun u => RegsKeptBut vf s u ∧ OnlyChanges [.v] s u

/-! ## Keypad and timers -/

/-- LD Vx, K (44 R195, decision D12; log 11): the core waits with a snapshot of the keypad, nothing else changes, and a key
already held does not end the wait: with the keypad as it is, the next step still waits. -/
def Obligations.WaitForKeyStartsWithASnapshot : Prop :=
  ∀ (x : Nibble) (s : State), Completes (.ldVxK x) s fun t =>
    t.mode = .waitingForKey x s.key ∧ t.outcome = .waiting ∧ OnlyChanges [.mode] s t ∧
    ∃ u, step t = .next u ∧ u.mode = .waitingForKey x s.key ∧ OnlyChanges [] t u

/-- LD Vx, DT; LD DT, Vx; LD ST, Vx (44 R194, R196, R197): the moves, the countdown that k ticks make of the new DT and ST, and
the sound output that follows the new ST. That ticks count while the core waits is decision D16 (log 1). -/
def Obligations.TimerMoves : Prop :=
  ∀ (x : Nibble) (s : State),
    WritesReg (.ldVxDt x) s x (fun v => v = s.dt) ∧
    (Completes (.ldDtVx x) s fun t => t.dt = s.readV x ∧ OnlyChanges [.dt] s t ∧
      ((∀ e, s.mode ≠ .halted e) → ∀ k : Nat, (tickTx^[k] t).dt.toNat = (s.readV x).toNat - k)) ∧
    (Completes (.ldStVx x) s fun t => t.st = s.readV x ∧ OnlyChanges [.st] s t ∧
      soundTx t = (s.readV x, decide ((s.readV x).toNat ≠ 0)) ∧
      ((∀ e, s.mode ≠ .halted e) → ∀ k : Nat, (tickTx^[k] t).st.toNat = (s.readV x).toNat - k))

/-- A tick counts both timers down, clamped at 0, in Running and while waiting, and does nothing to a halted core (60 R230,
decisions D13 and D16; log 1, 12). -/
def Obligations.TickCountsDownUnlessHalted : Prop :=
  ∀ s : State,
    ((∀ e, s.mode ≠ .halted e) → (tickTx s).dt.toNat = s.dt.toNat - 1 ∧ (tickTx s).st.toNat = s.st.toNat - 1 ∧
      OnlyChanges [.dt, .st] s (tickTx s)) ∧
    (∀ e, s.mode = .halted e → OnlyChanges [] s (tickTx s))

/-! ## Reset, load and the reads -/

/-- What reset leaves, from any state and mode (10 R44, 70 R260): the spec's values, all of them its decision D2 but the
zeroed memory (log 2), and the font at FONT_BASE (D3; log 3). The parameters and the draw sources stay (log 19, 23). The
default font's first and last glyphs are those of 20 R55. -/
def Obligations.ResetLeavesTheListedValues : Prop :=
  (∀ s : State,
    (∀ r : Nibble, (resetTx s).readV r = 0#8) ∧ (resetTx s).i = 0#16 ∧ (resetTx s).pc = 0x200#16 ∧ (resetTx s).sp = 0 ∧
    (∀ j : Nibble, (resetTx s).stack[j] = 0#16) ∧ (resetTx s).dt = 0#8 ∧ (resetTx s).st = 0#8 ∧
    (∀ c : Fin 2048, (resetTx s).disp[c] = false) ∧ (∀ k : Nibble, (resetTx s).key[k] = false) ∧
    (resetTx s).mode = .running ∧ (resetTx s).params = s.params ∧
    (∀ k : Fin 80, (resetTx s).readByte (s.params.fontBase.val + k.val) = s.params.fontData[k]) ∧
    (∀ a, a < s.params.fontBase.val ∨ s.params.fontBase.val + 80 ≤ a → (resetTx s).readByte a = 0#8)) ∧
  resetTx State.reset = State.reset ∧ State.reset.params.oddPc = .allow ∧
  State.reset.loadBytes 0x000 5 = [0xF0, 0x90, 0x90, 0x90, 0xF0] ∧
  State.reset.loadBytes 0x04B 5 = [0xF0, 0x80, 0xF0, 0x80, 0x80]

/-- A load of at most 3584 bytes before the first step writes them from 0x200 on and nothing else; a longer one answers
ProgramTooLarge and leaves the core as it is, and whatever the host does next runs from there (70 R263); after the first step
any load is refused, since the spec gives it no meaning (decision D23; log 18). -/
def Obligations.LoadWritesTheProgramOrRefuses : Prop :=
  ∀ (bytes : List Byte) (s : State), Memory.wf s.params s.mem = true →
    (bytes.length ≤ 3584 → ∃ t, transact (.load bytes) ⟨s, false⟩ = .next (⟨t, false⟩, .done) ∧
      (∀ (k : Nat) (h : k < bytes.length), t.readByte (0x200 + k) = bytes[k]) ∧
      MemKeptOutside 0x200 bytes.length s t ∧ OnlyChanges [.mem] s t) ∧
    (3584 < bytes.length → transact (.load bytes) ⟨s, false⟩ = .next (⟨s, false⟩, .programTooLarge) ∧
      ∀ txs : List Transaction, transactAll (.load bytes :: txs) ⟨s, false⟩ = transactAll txs ⟨s, false⟩) ∧
    transact (.load bytes) ⟨s, true⟩ = .refused .loadAfterStep

/-- The three reads return the display, the sound outputs and the mode, and leave the core as it is (60 R233, R234, R236;
decisions D1 and D30, log 1). -/
def Obligations.ReadsChangeNothing : Prop :=
  ∀ u : Session,
    transact .display u = .next (u, .display u.state.disp) ∧
    transact .sound u = .next (u, .sound u.state.st (decide (u.state.st.toNat ≠ 0))) ∧
    transact .status u = .next (u, .status u.state.mode)

/-! ## Invariants -/

/-- The reset state, under any parameters, meets both invariants. -/
def Obligations.ResetMeetsTheInvariants : Prop :=
  State.reset.Inv ∧ State.reset.EvenPc ∧ ∀ p : Params, (State.resetWith p).Inv ∧ (State.resetWith p).EvenPc

/-- Every step keeps the invariant: memory stays canonical, `pc` never exceeds 0x1002 (10 R26), slot 0 is never written
(R31), and a latched error is truthful (R42). Decisions D6, D7, D13 and D15 (log 5, 6, 12, 14); the memory's form is the
model's (log 21). -/
def Obligations.EveryStepKeepsTheInvariant : Prop := ∀ s t : State, s.Inv → step s = .next t → t.Inv

/-- Under ODD_PC = Fault every step keeps `pc` and the return addresses even (10 R26, 20 R59; decision D6, log 5). -/
def Obligations.EveryStepKeepsPcEvenUnderOddPcFault : Prop := ∀ s t : State, s.EvenPc → step s = .next t → t.EvenPc

/-- Both invariants hold under every schedule of the host: any list of transactions that is not refused keeps them (20 R64,
60 R236; decisions D1, D16, D24, log 1). -/
def Obligations.EveryScheduleKeepsTheInvariants : Prop :=
  ∀ (txs : List Transaction) (u u' : Session), u.state.Inv → u.state.EvenPc → transactAll txs u = .next u' →
    u'.state.Inv ∧ u'.state.EvenPc
end

