-- ==== Sys2Proof/Laws/Decode.lean ====
section
/-! SUPPORT. The encoding formats as numbers, and the fields a decoder reads back from each. -/

namespace Sys2Proof

theorem toNat_encNNN {f : Nat} (hf : f < 16) (nnn : Addr12) : (encNNN f nnn).toNat = f * 4096 + nnn.toNat := by
  have := nnn.isLt
  simp [encNNN]; omega

theorem toNat_encXKK {f : Nat} (hf : f < 16) (x : Nibble) (kk : Byte) :
    (encXKK f x kk).toNat = f * 4096 + x.val * 256 + kk.toNat := by
  have := kk.isLt
  have := x.isLt
  simp [encXKK]; omega

theorem toNat_encXYN {f : Nat} (hf : f < 16) (x y n : Nibble) :
    (encXYN f x y n).toNat = f * 4096 + x.val * 256 + y.val * 16 + n.val := by
  have := x.isLt
  have := y.isLt
  have := n.isLt
  simp [encXYN]; omega

theorem fields_encNNN {f : Nat} (hf : f < 16) (nnn : Addr12) :
    family (encNNN f nnn) = f ∧ fieldNnn (encNNN f nnn) = nnn := by
  have hw := toNat_encNNN hf nnn
  have := nnn.isLt
  refine ⟨by simp [family, hw]; omega, ?_⟩
  apply BitVec.eq_of_toNat_eq
  simp [fieldNnn, hw]; omega

theorem fields_encXKK {f : Nat} (hf : f < 16) (x : Nibble) (kk : Byte) :
    family (encXKK f x kk) = f ∧ fieldX (encXKK f x kk) = x ∧ fieldKk (encXKK f x kk) = kk := by
  have hw := toNat_encXKK hf x kk
  have := kk.isLt
  have := x.isLt
  refine ⟨by simp [family, hw]; omega, ?_, ?_⟩
  · apply Fin.ext; simp [fieldX, hw]; omega
  · apply BitVec.eq_of_toNat_eq; simp [fieldKk, hw]; omega

theorem fields_encXYN {f : Nat} (hf : f < 16) (x y n : Nibble) :
    family (encXYN f x y n) = f ∧ fieldX (encXYN f x y n) = x ∧ fieldY (encXYN f x y n) = y ∧
    fieldN (encXYN f x y n) = n := by
  have hw := toNat_encXYN hf x y n
  have := x.isLt
  have := y.isLt
  have := n.isLt
  refine ⟨by simp [family, hw]; omega, ?_, ?_, ?_⟩
  · apply Fin.ext; simp [fieldX, hw]; omega
  · apply Fin.ext; simp [fieldY, hw]; omega
  · apply Fin.ext; simp [fieldN, hw]; omega

/-- Splitting a word into its two bytes and joining them gives the word back. -/
theorem joinBytes_hiByte_loByte (w : Word) : joinBytes (hiByte w) (loByte w) = w := by
  have := w.isLt
  apply BitVec.eq_of_toNat_eq
  simp [joinBytes, hiByte, loByte]; omega

/-- The layout the fetch sees: decoding a word's two bytes is decoding the word. -/
theorem decodeBytes_wordBytes (w : Word) (rest : List Byte) :
    decodeBytes (wordBytes w ++ rest) =
      match decode w with
      | some i => .ok (i, rest)
      | none => .error (.unknown w) := by
  have h : ∀ v, joinBytes (hiByte w) (loByte w) = v → decodeBytes (wordBytes w ++ rest) =
      match decode v with
      | some i => .ok (i, rest)
      | none => .error (.unknown v) := by rintro _ rfl; rfl
  exact h w (joinBytes_hiByte_loByte w)

/-- `decodeTableWord` is the decoder on the row's word. -/
theorem decodeTableWord_eq (nbits w : Nat) : decodeTableWord nbits w = decode (tableWord nbits w) := by
  have h := decodeBytes_wordBytes (tableWord nbits w) []
  rw [List.append_nil] at h
  rw [decodeTableWord, h]
  cases decode (tableWord nbits w) <;> rfl

end Sys2Proof
end

