-- ==== Sys2Proof/Laws/State.lean ====
section
/-! SUPPORT. One lemma for each field under each of the machine's updates, so that no later proof unfolds a record update. -/

namespace Sys2Proof.Machine.State

/-! ### `writeV` -/

@[simp] theorem writeV_i (s : State) (r : Nibble) (b : Byte) : (s.writeV r b).i = s.i := rfl
@[simp] theorem writeV_pc (s : State) (r : Nibble) (b : Byte) : (s.writeV r b).pc = s.pc := rfl
@[simp] theorem writeV_sp (s : State) (r : Nibble) (b : Byte) : (s.writeV r b).sp = s.sp := rfl
@[simp] theorem writeV_stack (s : State) (r : Nibble) (b : Byte) : (s.writeV r b).stack = s.stack := rfl
@[simp] theorem writeV_dt (s : State) (r : Nibble) (b : Byte) : (s.writeV r b).dt = s.dt := rfl
@[simp] theorem writeV_st (s : State) (r : Nibble) (b : Byte) : (s.writeV r b).st = s.st := rfl
@[simp] theorem writeV_disp (s : State) (r : Nibble) (b : Byte) : (s.writeV r b).disp = s.disp := rfl
@[simp] theorem writeV_key (s : State) (r : Nibble) (b : Byte) : (s.writeV r b).key = s.key := rfl
@[simp] theorem writeV_mode (s : State) (r : Nibble) (b : Byte) : (s.writeV r b).mode = s.mode := rfl
@[simp] theorem writeV_mem (s : State) (r : Nibble) (b : Byte) : (s.writeV r b).mem = s.mem := rfl
@[simp] theorem writeV_params (s : State) (r : Nibble) (b : Byte) : (s.writeV r b).params = s.params := rfl
@[simp] theorem writeV_rand (s : State) (r : Nibble) (b : Byte) : (s.writeV r b).rand = s.rand := rfl
@[simp] theorem writeV_keyRand (s : State) (r : Nibble) (b : Byte) : (s.writeV r b).keyRand = s.keyRand := rfl
@[simp] theorem writeV_v (s : State) (r : Nibble) (b : Byte) : (s.writeV r b).v = s.v.set r b := rfl

/-! ### `writeI` -/

@[simp] theorem writeI_v (s : State) (a : Word) : (s.writeI a).v = s.v := rfl
@[simp] theorem writeI_pc (s : State) (a : Word) : (s.writeI a).pc = s.pc := rfl
@[simp] theorem writeI_sp (s : State) (a : Word) : (s.writeI a).sp = s.sp := rfl
@[simp] theorem writeI_stack (s : State) (a : Word) : (s.writeI a).stack = s.stack := rfl
@[simp] theorem writeI_dt (s : State) (a : Word) : (s.writeI a).dt = s.dt := rfl
@[simp] theorem writeI_st (s : State) (a : Word) : (s.writeI a).st = s.st := rfl
@[simp] theorem writeI_disp (s : State) (a : Word) : (s.writeI a).disp = s.disp := rfl
@[simp] theorem writeI_key (s : State) (a : Word) : (s.writeI a).key = s.key := rfl
@[simp] theorem writeI_mode (s : State) (a : Word) : (s.writeI a).mode = s.mode := rfl
@[simp] theorem writeI_mem (s : State) (a : Word) : (s.writeI a).mem = s.mem := rfl
@[simp] theorem writeI_params (s : State) (a : Word) : (s.writeI a).params = s.params := rfl
@[simp] theorem writeI_rand (s : State) (a : Word) : (s.writeI a).rand = s.rand := rfl
@[simp] theorem writeI_keyRand (s : State) (a : Word) : (s.writeI a).keyRand = s.keyRand := rfl
@[simp] theorem writeI_i (s : State) (a : Word) : (s.writeI a).i = a := rfl

/-! ### `writePc` -/

@[simp] theorem writePc_v (s : State) (a : Word) : (s.writePc a).v = s.v := rfl
@[simp] theorem writePc_i (s : State) (a : Word) : (s.writePc a).i = s.i := rfl
@[simp] theorem writePc_sp (s : State) (a : Word) : (s.writePc a).sp = s.sp := rfl
@[simp] theorem writePc_stack (s : State) (a : Word) : (s.writePc a).stack = s.stack := rfl
@[simp] theorem writePc_dt (s : State) (a : Word) : (s.writePc a).dt = s.dt := rfl
@[simp] theorem writePc_st (s : State) (a : Word) : (s.writePc a).st = s.st := rfl
@[simp] theorem writePc_disp (s : State) (a : Word) : (s.writePc a).disp = s.disp := rfl
@[simp] theorem writePc_key (s : State) (a : Word) : (s.writePc a).key = s.key := rfl
@[simp] theorem writePc_mode (s : State) (a : Word) : (s.writePc a).mode = s.mode := rfl
@[simp] theorem writePc_mem (s : State) (a : Word) : (s.writePc a).mem = s.mem := rfl
@[simp] theorem writePc_params (s : State) (a : Word) : (s.writePc a).params = s.params := rfl
@[simp] theorem writePc_rand (s : State) (a : Word) : (s.writePc a).rand = s.rand := rfl
@[simp] theorem writePc_keyRand (s : State) (a : Word) : (s.writePc a).keyRand = s.keyRand := rfl
@[simp] theorem writePc_pc (s : State) (a : Word) : (s.writePc a).pc = a := rfl

/-! ### `advance` -/

@[simp] theorem advance_v (s : State) : (s.advance).v = s.v := rfl
@[simp] theorem advance_i (s : State) : (s.advance).i = s.i := rfl
@[simp] theorem advance_sp (s : State) : (s.advance).sp = s.sp := rfl
@[simp] theorem advance_stack (s : State) : (s.advance).stack = s.stack := rfl
@[simp] theorem advance_dt (s : State) : (s.advance).dt = s.dt := rfl
@[simp] theorem advance_st (s : State) : (s.advance).st = s.st := rfl
@[simp] theorem advance_disp (s : State) : (s.advance).disp = s.disp := rfl
@[simp] theorem advance_key (s : State) : (s.advance).key = s.key := rfl
@[simp] theorem advance_mode (s : State) : (s.advance).mode = s.mode := rfl
@[simp] theorem advance_mem (s : State) : (s.advance).mem = s.mem := rfl
@[simp] theorem advance_params (s : State) : (s.advance).params = s.params := rfl
@[simp] theorem advance_rand (s : State) : (s.advance).rand = s.rand := rfl
@[simp] theorem advance_keyRand (s : State) : (s.advance).keyRand = s.keyRand := rfl
@[simp] theorem advance_pc (s : State) : (s.advance).pc = s.pc + 2#16 := rfl

/-! ### `skip` -/

@[simp] theorem skip_v (s : State) : (s.skip).v = s.v := rfl
@[simp] theorem skip_i (s : State) : (s.skip).i = s.i := rfl
@[simp] theorem skip_sp (s : State) : (s.skip).sp = s.sp := rfl
@[simp] theorem skip_stack (s : State) : (s.skip).stack = s.stack := rfl
@[simp] theorem skip_dt (s : State) : (s.skip).dt = s.dt := rfl
@[simp] theorem skip_st (s : State) : (s.skip).st = s.st := rfl
@[simp] theorem skip_disp (s : State) : (s.skip).disp = s.disp := rfl
@[simp] theorem skip_key (s : State) : (s.skip).key = s.key := rfl
@[simp] theorem skip_mode (s : State) : (s.skip).mode = s.mode := rfl
@[simp] theorem skip_mem (s : State) : (s.skip).mem = s.mem := rfl
@[simp] theorem skip_params (s : State) : (s.skip).params = s.params := rfl
@[simp] theorem skip_rand (s : State) : (s.skip).rand = s.rand := rfl
@[simp] theorem skip_keyRand (s : State) : (s.skip).keyRand = s.keyRand := rfl
@[simp] theorem skip_pc (s : State) : (s.skip).pc = s.pc + 2#16 := rfl

/-! ### `raise` -/

@[simp] theorem raise_v (s : State) (e : FatalError) : (s.raise e).v = s.v := rfl
@[simp] theorem raise_i (s : State) (e : FatalError) : (s.raise e).i = s.i := rfl
@[simp] theorem raise_pc (s : State) (e : FatalError) : (s.raise e).pc = s.pc := rfl
@[simp] theorem raise_sp (s : State) (e : FatalError) : (s.raise e).sp = s.sp := rfl
@[simp] theorem raise_stack (s : State) (e : FatalError) : (s.raise e).stack = s.stack := rfl
@[simp] theorem raise_dt (s : State) (e : FatalError) : (s.raise e).dt = s.dt := rfl
@[simp] theorem raise_st (s : State) (e : FatalError) : (s.raise e).st = s.st := rfl
@[simp] theorem raise_disp (s : State) (e : FatalError) : (s.raise e).disp = s.disp := rfl
@[simp] theorem raise_key (s : State) (e : FatalError) : (s.raise e).key = s.key := rfl
@[simp] theorem raise_mem (s : State) (e : FatalError) : (s.raise e).mem = s.mem := rfl
@[simp] theorem raise_params (s : State) (e : FatalError) : (s.raise e).params = s.params := rfl
@[simp] theorem raise_rand (s : State) (e : FatalError) : (s.raise e).rand = s.rand := rfl
@[simp] theorem raise_keyRand (s : State) (e : FatalError) : (s.raise e).keyRand = s.keyRand := rfl
@[simp] theorem raise_mode (s : State) (e : FatalError) : (s.raise e).mode = .halted e := rfl

/-! ### `writeByte` -/

@[simp] theorem writeByte_v (s : State) (a : Nat) (b : Byte) : (s.writeByte a b).v = s.v := rfl
@[simp] theorem writeByte_i (s : State) (a : Nat) (b : Byte) : (s.writeByte a b).i = s.i := rfl
@[simp] theorem writeByte_pc (s : State) (a : Nat) (b : Byte) : (s.writeByte a b).pc = s.pc := rfl
@[simp] theorem writeByte_sp (s : State) (a : Nat) (b : Byte) : (s.writeByte a b).sp = s.sp := rfl
@[simp] theorem writeByte_stack (s : State) (a : Nat) (b : Byte) : (s.writeByte a b).stack = s.stack := rfl
@[simp] theorem writeByte_dt (s : State) (a : Nat) (b : Byte) : (s.writeByte a b).dt = s.dt := rfl
@[simp] theorem writeByte_st (s : State) (a : Nat) (b : Byte) : (s.writeByte a b).st = s.st := rfl
@[simp] theorem writeByte_disp (s : State) (a : Nat) (b : Byte) : (s.writeByte a b).disp = s.disp := rfl
@[simp] theorem writeByte_key (s : State) (a : Nat) (b : Byte) : (s.writeByte a b).key = s.key := rfl
@[simp] theorem writeByte_mode (s : State) (a : Nat) (b : Byte) : (s.writeByte a b).mode = s.mode := rfl
@[simp] theorem writeByte_params (s : State) (a : Nat) (b : Byte) : (s.writeByte a b).params = s.params := rfl
@[simp] theorem writeByte_rand (s : State) (a : Nat) (b : Byte) : (s.writeByte a b).rand = s.rand := rfl
@[simp] theorem writeByte_keyRand (s : State) (a : Nat) (b : Byte) : (s.writeByte a b).keyRand = s.keyRand := rfl
@[simp] theorem writeByte_mem (s : State) (a : Nat) (b : Byte) : (s.writeByte a b).mem = Memory.write s.params s.mem a b := rfl

/-! ### `push` -/

@[simp] theorem push_v (s : State) (a : Word) : (s.push a).v = s.v := rfl
@[simp] theorem push_i (s : State) (a : Word) : (s.push a).i = s.i := rfl
@[simp] theorem push_pc (s : State) (a : Word) : (s.push a).pc = s.pc := rfl
@[simp] theorem push_dt (s : State) (a : Word) : (s.push a).dt = s.dt := rfl
@[simp] theorem push_st (s : State) (a : Word) : (s.push a).st = s.st := rfl
@[simp] theorem push_disp (s : State) (a : Word) : (s.push a).disp = s.disp := rfl
@[simp] theorem push_key (s : State) (a : Word) : (s.push a).key = s.key := rfl
@[simp] theorem push_mode (s : State) (a : Word) : (s.push a).mode = s.mode := rfl
@[simp] theorem push_mem (s : State) (a : Word) : (s.push a).mem = s.mem := rfl
@[simp] theorem push_params (s : State) (a : Word) : (s.push a).params = s.params := rfl
@[simp] theorem push_rand (s : State) (a : Word) : (s.push a).rand = s.rand := rfl
@[simp] theorem push_keyRand (s : State) (a : Word) : (s.push a).keyRand = s.keyRand := rfl
@[simp] theorem push_sp (s : State) (a : Word) : (s.push a).sp = s.sp + 1 := rfl

/-! ### `drop` -/

@[simp] theorem drop_v (s : State) : (s.drop).v = s.v := rfl
@[simp] theorem drop_i (s : State) : (s.drop).i = s.i := rfl
@[simp] theorem drop_pc (s : State) : (s.drop).pc = s.pc := rfl
@[simp] theorem drop_stack (s : State) : (s.drop).stack = s.stack := rfl
@[simp] theorem drop_dt (s : State) : (s.drop).dt = s.dt := rfl
@[simp] theorem drop_st (s : State) : (s.drop).st = s.st := rfl
@[simp] theorem drop_disp (s : State) : (s.drop).disp = s.disp := rfl
@[simp] theorem drop_key (s : State) : (s.drop).key = s.key := rfl
@[simp] theorem drop_mode (s : State) : (s.drop).mode = s.mode := rfl
@[simp] theorem drop_mem (s : State) : (s.drop).mem = s.mem := rfl
@[simp] theorem drop_params (s : State) : (s.drop).params = s.params := rfl
@[simp] theorem drop_rand (s : State) : (s.drop).rand = s.rand := rfl
@[simp] theorem drop_keyRand (s : State) : (s.drop).keyRand = s.keyRand := rfl
@[simp] theorem drop_sp (s : State) : (s.drop).sp = s.sp - 1 := rfl

/-! ### `writeVAndFlag` -/

@[simp] theorem writeVAndFlag_i (s : State) (x : Nibble) (b : Byte) (c : Bool) : (s.writeVAndFlag x b c).i = s.i := rfl
@[simp] theorem writeVAndFlag_pc (s : State) (x : Nibble) (b : Byte) (c : Bool) : (s.writeVAndFlag x b c).pc = s.pc := rfl
@[simp] theorem writeVAndFlag_sp (s : State) (x : Nibble) (b : Byte) (c : Bool) : (s.writeVAndFlag x b c).sp = s.sp := rfl
@[simp] theorem writeVAndFlag_stack (s : State) (x : Nibble) (b : Byte) (c : Bool) : (s.writeVAndFlag x b c).stack = s.stack := rfl
@[simp] theorem writeVAndFlag_dt (s : State) (x : Nibble) (b : Byte) (c : Bool) : (s.writeVAndFlag x b c).dt = s.dt := rfl
@[simp] theorem writeVAndFlag_st (s : State) (x : Nibble) (b : Byte) (c : Bool) : (s.writeVAndFlag x b c).st = s.st := rfl
@[simp] theorem writeVAndFlag_disp (s : State) (x : Nibble) (b : Byte) (c : Bool) : (s.writeVAndFlag x b c).disp = s.disp := rfl
@[simp] theorem writeVAndFlag_key (s : State) (x : Nibble) (b : Byte) (c : Bool) : (s.writeVAndFlag x b c).key = s.key := rfl
@[simp] theorem writeVAndFlag_mode (s : State) (x : Nibble) (b : Byte) (c : Bool) : (s.writeVAndFlag x b c).mode = s.mode := rfl
@[simp] theorem writeVAndFlag_mem (s : State) (x : Nibble) (b : Byte) (c : Bool) : (s.writeVAndFlag x b c).mem = s.mem := rfl
@[simp] theorem writeVAndFlag_params (s : State) (x : Nibble) (b : Byte) (c : Bool) : (s.writeVAndFlag x b c).params = s.params := rfl
@[simp] theorem writeVAndFlag_rand (s : State) (x : Nibble) (b : Byte) (c : Bool) : (s.writeVAndFlag x b c).rand = s.rand := rfl
@[simp] theorem writeVAndFlag_keyRand (s : State) (x : Nibble) (b : Byte) (c : Bool) : (s.writeVAndFlag x b c).keyRand = s.keyRand := rfl

/-! ### `resume` -/

@[simp] theorem resume_i (s : State) (x k : Nibble) : (s.resume x k).i = s.i := rfl
@[simp] theorem resume_pc (s : State) (x k : Nibble) : (s.resume x k).pc = s.pc := rfl
@[simp] theorem resume_sp (s : State) (x k : Nibble) : (s.resume x k).sp = s.sp := rfl
@[simp] theorem resume_stack (s : State) (x k : Nibble) : (s.resume x k).stack = s.stack := rfl
@[simp] theorem resume_dt (s : State) (x k : Nibble) : (s.resume x k).dt = s.dt := rfl
@[simp] theorem resume_st (s : State) (x k : Nibble) : (s.resume x k).st = s.st := rfl
@[simp] theorem resume_disp (s : State) (x k : Nibble) : (s.resume x k).disp = s.disp := rfl
@[simp] theorem resume_key (s : State) (x k : Nibble) : (s.resume x k).key = s.key := rfl
@[simp] theorem resume_mem (s : State) (x k : Nibble) : (s.resume x k).mem = s.mem := rfl
@[simp] theorem resume_params (s : State) (x k : Nibble) : (s.resume x k).params = s.params := rfl
@[simp] theorem resume_rand (s : State) (x k : Nibble) : (s.resume x k).rand = s.rand := rfl
@[simp] theorem resume_mode (s : State) (x k : Nibble) : (s.resume x k).mode = .running := rfl
@[simp] theorem resume_keyRand (s : State) (x k : Nibble) : (s.resume x k).keyRand = s.keyRand.next.2 := rfl

/-! ### `skipIf`, `storeBytes`, `storeRegs` -/

@[simp] theorem skipIf_v (s : State) (c : Bool) : (s.skipIf c).v = s.v := by cases c <;> rfl
@[simp] theorem skipIf_i (s : State) (c : Bool) : (s.skipIf c).i = s.i := by cases c <;> rfl
@[simp] theorem skipIf_sp (s : State) (c : Bool) : (s.skipIf c).sp = s.sp := by cases c <;> rfl
@[simp] theorem skipIf_stack (s : State) (c : Bool) : (s.skipIf c).stack = s.stack := by cases c <;> rfl
@[simp] theorem skipIf_dt (s : State) (c : Bool) : (s.skipIf c).dt = s.dt := by cases c <;> rfl
@[simp] theorem skipIf_st (s : State) (c : Bool) : (s.skipIf c).st = s.st := by cases c <;> rfl
@[simp] theorem skipIf_disp (s : State) (c : Bool) : (s.skipIf c).disp = s.disp := by cases c <;> rfl
@[simp] theorem skipIf_key (s : State) (c : Bool) : (s.skipIf c).key = s.key := by cases c <;> rfl
@[simp] theorem skipIf_mode (s : State) (c : Bool) : (s.skipIf c).mode = s.mode := by cases c <;> rfl
@[simp] theorem skipIf_mem (s : State) (c : Bool) : (s.skipIf c).mem = s.mem := by cases c <;> rfl
@[simp] theorem skipIf_params (s : State) (c : Bool) : (s.skipIf c).params = s.params := by cases c <;> rfl
@[simp] theorem skipIf_rand (s : State) (c : Bool) : (s.skipIf c).rand = s.rand := by cases c <;> rfl
@[simp] theorem skipIf_keyRand (s : State) (c : Bool) : (s.skipIf c).keyRand = s.keyRand := by cases c <;> rfl
@[simp] theorem skipIf_pc (s : State) (c : Bool) : (s.skipIf c).pc = if c then s.pc + 2#16 else s.pc := by
  cases c <;> rfl
@[simp] theorem storeBytes_v (s : State) (a : Nat) (bs : List Byte) : (s.storeBytes a bs).v = s.v := by
  induction bs generalizing s a with
  | nil => rfl
  | cons b bs ih => exact ih (s.writeByte a b) (a + 1)
@[simp] theorem storeBytes_i (s : State) (a : Nat) (bs : List Byte) : (s.storeBytes a bs).i = s.i := by
  induction bs generalizing s a with
  | nil => rfl
  | cons b bs ih => exact ih (s.writeByte a b) (a + 1)
@[simp] theorem storeBytes_pc (s : State) (a : Nat) (bs : List Byte) : (s.storeBytes a bs).pc = s.pc := by
  induction bs generalizing s a with
  | nil => rfl
  | cons b bs ih => exact ih (s.writeByte a b) (a + 1)
@[simp] theorem storeBytes_sp (s : State) (a : Nat) (bs : List Byte) : (s.storeBytes a bs).sp = s.sp := by
  induction bs generalizing s a with
  | nil => rfl
  | cons b bs ih => exact ih (s.writeByte a b) (a + 1)
@[simp] theorem storeBytes_stack (s : State) (a : Nat) (bs : List Byte) : (s.storeBytes a bs).stack = s.stack := by
  induction bs generalizing s a with
  | nil => rfl
  | cons b bs ih => exact ih (s.writeByte a b) (a + 1)
@[simp] theorem storeBytes_dt (s : State) (a : Nat) (bs : List Byte) : (s.storeBytes a bs).dt = s.dt := by
  induction bs generalizing s a with
  | nil => rfl
  | cons b bs ih => exact ih (s.writeByte a b) (a + 1)
@[simp] theorem storeBytes_st (s : State) (a : Nat) (bs : List Byte) : (s.storeBytes a bs).st = s.st := by
  induction bs generalizing s a with
  | nil => rfl
  | cons b bs ih => exact ih (s.writeByte a b) (a + 1)
@[simp] theorem storeBytes_disp (s : State) (a : Nat) (bs : List Byte) : (s.storeBytes a bs).disp = s.disp := by
  induction bs generalizing s a with
  | nil => rfl
  | cons b bs ih => exact ih (s.writeByte a b) (a + 1)
@[simp] theorem storeBytes_key (s : State) (a : Nat) (bs : List Byte) : (s.storeBytes a bs).key = s.key := by
  induction bs generalizing s a with
  | nil => rfl
  | cons b bs ih => exact ih (s.writeByte a b) (a + 1)
@[simp] theorem storeBytes_mode (s : State) (a : Nat) (bs : List Byte) : (s.storeBytes a bs).mode = s.mode := by
  induction bs generalizing s a with
  | nil => rfl
  | cons b bs ih => exact ih (s.writeByte a b) (a + 1)
@[simp] theorem storeBytes_params (s : State) (a : Nat) (bs : List Byte) : (s.storeBytes a bs).params = s.params := by
  induction bs generalizing s a with
  | nil => rfl
  | cons b bs ih => exact ih (s.writeByte a b) (a + 1)
@[simp] theorem storeBytes_rand (s : State) (a : Nat) (bs : List Byte) : (s.storeBytes a bs).rand = s.rand := by
  induction bs generalizing s a with
  | nil => rfl
  | cons b bs ih => exact ih (s.writeByte a b) (a + 1)
@[simp] theorem storeBytes_keyRand (s : State) (a : Nat) (bs : List Byte) : (s.storeBytes a bs).keyRand = s.keyRand := by
  induction bs generalizing s a with
  | nil => rfl
  | cons b bs ih => exact ih (s.writeByte a b) (a + 1)
@[simp] theorem storeRegs_i (s : State) (r : Nat) (bs : List Byte) : (s.storeRegs r bs).i = s.i := by
  induction bs generalizing s r with
  | nil => rfl
  | cons b bs ih => exact ih _ (r + 1)
@[simp] theorem storeRegs_pc (s : State) (r : Nat) (bs : List Byte) : (s.storeRegs r bs).pc = s.pc := by
  induction bs generalizing s r with
  | nil => rfl
  | cons b bs ih => exact ih _ (r + 1)
@[simp] theorem storeRegs_sp (s : State) (r : Nat) (bs : List Byte) : (s.storeRegs r bs).sp = s.sp := by
  induction bs generalizing s r with
  | nil => rfl
  | cons b bs ih => exact ih _ (r + 1)
@[simp] theorem storeRegs_stack (s : State) (r : Nat) (bs : List Byte) : (s.storeRegs r bs).stack = s.stack := by
  induction bs generalizing s r with
  | nil => rfl
  | cons b bs ih => exact ih _ (r + 1)
@[simp] theorem storeRegs_dt (s : State) (r : Nat) (bs : List Byte) : (s.storeRegs r bs).dt = s.dt := by
  induction bs generalizing s r with
  | nil => rfl
  | cons b bs ih => exact ih _ (r + 1)
@[simp] theorem storeRegs_st (s : State) (r : Nat) (bs : List Byte) : (s.storeRegs r bs).st = s.st := by
  induction bs generalizing s r with
  | nil => rfl
  | cons b bs ih => exact ih _ (r + 1)
@[simp] theorem storeRegs_disp (s : State) (r : Nat) (bs : List Byte) : (s.storeRegs r bs).disp = s.disp := by
  induction bs generalizing s r with
  | nil => rfl
  | cons b bs ih => exact ih _ (r + 1)
@[simp] theorem storeRegs_key (s : State) (r : Nat) (bs : List Byte) : (s.storeRegs r bs).key = s.key := by
  induction bs generalizing s r with
  | nil => rfl
  | cons b bs ih => exact ih _ (r + 1)
@[simp] theorem storeRegs_mode (s : State) (r : Nat) (bs : List Byte) : (s.storeRegs r bs).mode = s.mode := by
  induction bs generalizing s r with
  | nil => rfl
  | cons b bs ih => exact ih _ (r + 1)
@[simp] theorem storeRegs_mem (s : State) (r : Nat) (bs : List Byte) : (s.storeRegs r bs).mem = s.mem := by
  induction bs generalizing s r with
  | nil => rfl
  | cons b bs ih => exact ih _ (r + 1)
@[simp] theorem storeRegs_params (s : State) (r : Nat) (bs : List Byte) : (s.storeRegs r bs).params = s.params := by
  induction bs generalizing s r with
  | nil => rfl
  | cons b bs ih => exact ih _ (r + 1)
@[simp] theorem storeRegs_rand (s : State) (r : Nat) (bs : List Byte) : (s.storeRegs r bs).rand = s.rand := by
  induction bs generalizing s r with
  | nil => rfl
  | cons b bs ih => exact ih _ (r + 1)
@[simp] theorem storeRegs_keyRand (s : State) (r : Nat) (bs : List Byte) : (s.storeRegs r bs).keyRand = s.keyRand := by
  induction bs generalizing s r with
  | nil => rfl
  | cons b bs ih => exact ih _ (r + 1)

end Sys2Proof.Machine.State
end

