-- ==== Sys2Proof/Laws/Memory.lean ====
section
/-! SUPPORT. The laws of memory: a read after a write, and that every memory operation keeps the canonical form. -/

namespace Sys2Proof.Machine

theorem Memory.above_mono {lo hi : Nat} {m : List Host.Cell} (h : Memory.above hi m = true) (hle : lo ≤ hi) :
    Memory.above lo m = true := by
  cases m with
  | nil => rfl
  | cons c rest => simp only [Memory.above, decide_eq_true_eq] at h ⊢; omega

/-- The parts of the canonical form of a non-empty list. -/
theorem Memory.wf_cons {p : Params} {k : Nat} {b : Byte} {rest : List Host.Cell} :
    Memory.wf p ((k, b) :: rest) = true ↔
      k < Config.memSize ∧ b ≠ resetByte p k ∧ Memory.above (k + 1) rest = true ∧ Memory.wf p rest = true := by
  simp [Memory.wf, and_assoc]

/-- Below every listed address, memory reads as the reset contents. -/
theorem Memory.read_below {p : Params} {m : List Host.Cell} {lo a : Nat} (hwf : Memory.wf p m = true)
    (habove : Memory.above lo m = true) (ha : a < lo) : Memory.read p m a = resetByte p a := by
  induction m generalizing lo with
  | nil => rfl
  | cons c rest ih =>
    obtain ⟨k, b⟩ := c
    obtain ⟨-, -, hrest, hwfrest⟩ := Memory.wf_cons.mp hwf
    simp only [Memory.above, decide_eq_true_eq] at habove
    rw [Memory.read, if_neg (by omega)]
    exact ih hwfrest hrest (by omega)

theorem Memory.read_put_ne {p : Params} {a c : Nat} {b : Byte} {rest : List Host.Cell} (h : c ≠ a) :
    Memory.read p (Memory.put p a b rest) c = Memory.read p rest c := by
  unfold Memory.put
  split
  · rfl
  · rw [Memory.read, if_neg (Ne.symm h)]

/-- A write leaves every other address alone, in any list. -/
theorem Memory.read_write_ne {p : Params} {m : List Host.Cell} {a c : Nat} {b : Byte} (h : c ≠ a) :
    Memory.read p (Memory.write p m a b) c = Memory.read p m c := by
  induction m with
  | nil => exact Memory.read_put_ne h
  | cons cell rest ih =>
    obtain ⟨k, d⟩ := cell
    rw [Memory.write]
    split
    · exact Memory.read_put_ne h
    · split
      · subst_vars
        rw [Memory.read_put_ne h, Memory.read, if_neg (Ne.symm h)]
      · simp only [Memory.read, ih]

theorem Memory.read_put_same {p : Params} {a : Nat} {b : Byte} {rest : List Host.Cell}
    (hwf : Memory.wf p rest = true) (habove : Memory.above (a + 1) rest = true) :
    Memory.read p (Memory.put p a b rest) a = b := by
  unfold Memory.put
  split
  · rename_i hb
    rw [Memory.read_below hwf habove (by omega), hb]
  · rw [Memory.read, if_pos rfl]

/-- A read after a write to the same address gives the byte written. -/
theorem Memory.read_write_same {p : Params} {m : List Host.Cell} {a : Nat} {b : Byte} (hwf : Memory.wf p m = true) :
    Memory.read p (Memory.write p m a b) a = b := by
  induction m with
  | nil => exact Memory.read_put_same rfl rfl
  | cons cell rest ih =>
    obtain ⟨k, d⟩ := cell
    obtain ⟨hk, hd, hrest, hwfrest⟩ := Memory.wf_cons.mp hwf
    rw [Memory.write]
    split
    · rename_i hlt
      exact Memory.read_put_same hwf (by simp only [Memory.above, decide_eq_true_eq]; omega)
    · split
      · subst_vars; exact Memory.read_put_same hwfrest hrest
      · rename_i hne
        rw [Memory.read, if_neg (Ne.symm hne)]
        exact ih hwfrest

theorem Memory.above_put {p : Params} {lo a : Nat} {b : Byte} {rest : List Host.Cell} (ha : lo ≤ a)
    (habove : Memory.above lo rest = true) : Memory.above lo (Memory.put p a b rest) = true := by
  unfold Memory.put
  split
  · exact habove
  · simpa [Memory.above] using ha

theorem Memory.above_write {p : Params} {m : List Host.Cell} {lo a : Nat} {b : Byte} (hwf : Memory.wf p m = true)
    (ha : lo ≤ a) (habove : Memory.above lo m = true) : Memory.above lo (Memory.write p m a b) = true := by
  cases m with
  | nil => exact Memory.above_put ha rfl
  | cons cell rest =>
    obtain ⟨k, d⟩ := cell
    obtain ⟨-, -, hrest, -⟩ := Memory.wf_cons.mp hwf
    rw [Memory.write]
    split
    · exact Memory.above_put ha habove
    · split
      · exact Memory.above_put ha (Memory.above_mono hrest (by omega))
      · exact habove

theorem Memory.wf_put {p : Params} {a : Nat} {b : Byte} {rest : List Host.Cell} (ha : a < Config.memSize)
    (hwf : Memory.wf p rest = true) (habove : Memory.above (a + 1) rest = true) :
    Memory.wf p (Memory.put p a b rest) = true := by
  unfold Memory.put
  split
  · exact hwf
  · rename_i hb
    exact Memory.wf_cons.mpr ⟨ha, hb, habove, hwf⟩

/-- A write to an address of the machine keeps the canonical form. -/
theorem Memory.wf_write {p : Params} {m : List Host.Cell} {a : Nat} {b : Byte} (ha : a < Config.memSize)
    (hwf : Memory.wf p m = true) : Memory.wf p (Memory.write p m a b) = true := by
  induction m with
  | nil => exact Memory.wf_put ha rfl rfl
  | cons cell rest ih =>
    obtain ⟨k, d⟩ := cell
    obtain ⟨hk, hd, hrest, hwfrest⟩ := Memory.wf_cons.mp hwf
    rw [Memory.write]
    split
    · rename_i hlt
      exact Memory.wf_put ha hwf (by simp only [Memory.above, decide_eq_true_eq]; omega)
    · split
      · subst_vars; exact Memory.wf_put ha hwfrest hrest
      · exact Memory.wf_cons.mpr ⟨hk, hd, Memory.above_write hwfrest (by omega) hrest, ih hwfrest⟩

end Sys2Proof.Machine
end

