-- ==== Sys2Proof/Laws/Ops.lean ====
section
/-! SUPPORT. One lemma for each shared operation that says all it can do; proofs cite these instead of unfolding it. -/

namespace Sys2Proof.Machine

/-! ## Registers -/

theorem readV_writeV (s : State) (x r : Nibble) (b : Byte) :
    (s.writeV x b).readV r = if r = x then b else s.readV r := by
  simp only [State.readV, State.writeV, Fin.getElem_fin, Vector.getElem_set, Fin.val_inj, eq_comm]

@[simp] theorem readV_writeV_same (s : State) (x : Nibble) (b : Byte) : (s.writeV x b).readV x = b := by
  simp [readV_writeV]

theorem readV_writeV_ne (s : State) {x r : Nibble} (b : Byte) (h : r ≠ x) : (s.writeV x b).readV r = s.readV r := by
  simp [readV_writeV, h]

/-- Where `x` is F, VF holds the flag; every register but `x` and VF is kept. -/
theorem readV_writeVAndFlag (s : State) (x r : Nibble) (b : Byte) (c : Bool) :
    (s.writeVAndFlag x b c).readV r = if r = vf then flagByte c else if r = x then b else s.readV r := by
  simp [State.writeVAndFlag, readV_writeV]

/-- A register read depends on the registers alone. -/
theorem readV_congr {s t : State} (h : t.v = s.v) (r : Nibble) : t.readV r = s.readV r := by
  simp [State.readV, h]

theorem length_nibbles : nibbles.length = 16 := rfl

theorem getElem_nibbles (k : Nat) (h : k < 16) : nibbles[k]'(by simpa [length_nibbles] using h) = ⟨k, h⟩ := by
  have : ∀ j : Nibble, nibbles[j.val]'(by simp [length_nibbles]) = j := by decide
  exact this ⟨k, h⟩

theorem mem_nibbles (k : Nibble) : k ∈ nibbles := by
  have : ∀ j : Nibble, j ∈ nibbles := by decide
  exact this k

@[simp] theorem length_regsUpTo (s : State) (x : Nibble) : (s.regsUpTo x).length = x.val + 1 := by
  simp [State.regsUpTo, length_nibbles]

/-- The k-th byte of V0 to Vx is V[k]. -/
theorem getElem_regsUpTo (s : State) (x : Nibble) (k : Nat) (h : k < x.val + 1) :
    (s.regsUpTo x)[k]'(by simpa using h) = s.readV ⟨k, by omega⟩ := by
  simp [State.regsUpTo, getElem_nibbles k (by omega)]

/-- Writing consecutive registers: register `j` gets its byte where it has one, and is kept otherwise. -/
theorem readV_storeRegs (s : State) (r : Nat) (bs : List Byte) (j : Nibble) :
    (s.storeRegs r bs).readV j = if h : r ≤ j.val ∧ j.val < r + bs.length then bs[j.val - r]'(by omega) else s.readV j := by
  induction bs generalizing s r with
  | nil => simp [State.storeRegs]
  | cons b bs ih =>
    rw [State.storeRegs, ih]
    by_cases hj : j.val = r
    · subst hj
      simp [State.readV]
    · by_cases hin : r + 1 ≤ j.val ∧ j.val < r + 1 + bs.length
      · rw [dif_pos hin, dif_pos (by simp; omega)]
        have : j.val - r = (j.val - (r + 1)) + 1 := by omega
        simp [this]
      · rw [dif_neg hin, dif_neg (by simp; omega)]
        have : r ≠ j.val := Ne.symm hj
        simp [State.readV, this]

/-! ## Memory -/

/-- A byte read depends on the memory and the parameters alone. -/
theorem readByte_congr {s t : State} (hm : t.mem = s.mem) (hp : t.params = s.params) (a : Nat) :
    t.readByte a = s.readByte a := by
  simp [State.readByte, hm, hp]

theorem readByte_writeByte_ne (s : State) {a c : Nat} (b : Byte) (h : c ≠ a) :
    (s.writeByte a b).readByte c = s.readByte c := Memory.read_write_ne h

theorem readByte_writeByte_same (s : State) (a : Nat) (b : Byte) (hwf : Memory.wf s.params s.mem = true) :
    (s.writeByte a b).readByte a = b := Memory.read_write_same hwf

theorem wf_writeByte (s : State) (a : Nat) (b : Byte) (ha : a < Config.memSize) (hwf : Memory.wf s.params s.mem = true) :
    Memory.wf (s.writeByte a b).params (s.writeByte a b).mem = true := Memory.wf_write ha hwf

/-- Every memory operation keeps the canonical form: a block store inside memory. -/
theorem wf_storeBytes (s : State) (a : Nat) (bs : List Byte) (h : a + bs.length ≤ Config.memSize)
    (hwf : Memory.wf s.params s.mem = true) : Memory.wf (s.storeBytes a bs).params (s.storeBytes a bs).mem = true := by
  induction bs generalizing s a with
  | nil => exact hwf
  | cons b bs ih =>
    simp only [List.length_cons] at h
    exact ih (s.writeByte a b) (a + 1) (by omega) (wf_writeByte s a b (by omega) hwf)

/-- A block store changes no byte outside its block, in any memory. -/
theorem readByte_storeBytes_outside (s : State) (a : Nat) (bs : List Byte) {c : Nat} (h : c < a ∨ a + bs.length ≤ c) :
    (s.storeBytes a bs).readByte c = s.readByte c := by
  induction bs generalizing s a with
  | nil => rfl
  | cons b bs ih =>
    simp only [List.length_cons] at h
    rw [State.storeBytes, ih (s.writeByte a b) (a + 1) (by omega), readByte_writeByte_ne s b (by omega)]

/-- A block store inside memory writes its bytes in order. -/
theorem readByte_storeBytes_inside (s : State) (a : Nat) (bs : List Byte) (hfit : a + bs.length ≤ Config.memSize)
    (hwf : Memory.wf s.params s.mem = true) (k : Nat) (hk : k < bs.length) :
    (s.storeBytes a bs).readByte (a + k) = bs[k] := by
  induction bs generalizing s a k with
  | nil => simp at hk
  | cons b bs ih =>
    simp only [List.length_cons] at hfit hk
    cases k with
    | zero =>
      rw [State.storeBytes, Nat.add_zero, readByte_storeBytes_outside _ _ _ (by omega)]
      exact readByte_writeByte_same s a b hwf
    | succ k =>
      have := ih (s.writeByte a b) (a + 1) (by omega) (wf_writeByte s a b (by omega) hwf) k (by omega)
      rw [State.storeBytes, show a + (k + 1) = a + 1 + k by omega, this, List.getElem_cons_succ]

@[simp] theorem length_loadBytes (s : State) (a n : Nat) : (s.loadBytes a n).length = n := by
  induction n generalizing a with
  | zero => rfl
  | succ n ih => simp [State.loadBytes, ih]

/-- The k-th byte of a block load is the byte at `a + k`. -/
theorem getElem_loadBytes (s : State) (a n k : Nat) (h : k < n) :
    (s.loadBytes a n)[k]'(by simpa using h) = s.readByte (a + k) := by
  induction n generalizing a k with
  | zero => omega
  | succ n ih =>
    cases k with
    | zero => rfl
    | succ k => simp only [State.loadBytes, List.getElem_cons_succ, ih (a + 1) k (by omega)]; congr 1; omega

/-! ## Checks: each either runs the rest or takes one named error -/

theorem firstOutOfRange_eq_none {a n : Nat} : firstOutOfRange a n = none ↔ n = 0 ∨ a + n ≤ 4096 := by
  unfold firstOutOfRange Config.memSize
  split <;> simp <;> omega

theorem firstOutOfRange_eq_some {a n bad : Nat} :
    firstOutOfRange a n = some bad ↔ 0 < n ∧ 4096 < a + n ∧ bad = max a 4096 := by
  unfold firstOutOfRange Config.memSize
  split
  · simp; omega
  · simp; omega

theorem guardRange_inside {a n : Nat} {s : State} {rest : Result} (h : n = 0 ∨ a + n ≤ 4096) :
    guardRange a n s rest = rest := by
  simp [guardRange, firstOutOfRange_eq_none.mpr h]

theorem guardRange_outside {a n : Nat} {s : State} {rest : Result} (hn : 0 < n) (h : 4096 < a + n) :
    guardRange a n s rest = fatal (.addressOutOfRange (max a 4096) s.fetchPc) s := by
  simp [guardRange, firstOutOfRange_eq_some.mpr ⟨hn, h, rfl⟩]

/-- All that a guarded access can do. -/
theorem guardRange_cases (a n : Nat) (s : State) (rest : Result) :
    (n = 0 ∨ a + n ≤ 4096) ∧ guardRange a n s rest = rest ∨
    (0 < n ∧ 4096 < a + n) ∧ guardRange a n s rest = fatal (.addressOutOfRange (max a 4096) s.fetchPc) s := by
  by_cases h : n = 0 ∨ a + n ≤ 4096
  · exact .inl ⟨h, guardRange_inside h⟩
  · exact .inr ⟨by omega, guardRange_outside (by omega) (by omega)⟩

theorem asNibble_some {b : Byte} (h : b.toNat < 16) : asNibble b = some ⟨b.toNat, h⟩ := by simp [asNibble, h]

theorem asNibble_none {b : Byte} (h : ¬ b.toNat < 16) : asNibble b = none := by simp [asNibble, h]

theorem withNibble_inside {b : Byte} {s : State} {use : Nibble → Result} (h : b.toNat < 16) :
    withNibble b s use = use ⟨b.toNat, h⟩ := by simp [withNibble, asNibble_some h]

theorem withNibble_outside {b : Byte} {s : State} {use : Nibble → Result} (h : ¬ b.toNat < 16) :
    withNibble b s use = fatal (.operandOutOfRange b s.fetchPc) s := by simp [withNibble, asNibble_none h]

/-- All that a digit or key operand can do. -/
theorem withNibble_cases (b : Byte) (s : State) (use : Nibble → Result) :
    (∃ h : b.toNat < 16, withNibble b s use = use ⟨b.toNat, h⟩) ∨
    (¬ b.toNat < 16 ∧ withNibble b s use = fatal (.operandOutOfRange b s.fetchPc) s) := by
  by_cases h : b.toNat < 16
  · exact .inl ⟨h, withNibble_inside h⟩
  · exact .inr ⟨h, withNibble_outside h⟩

/-- All that the end of a jump can do. -/
theorem jumpTo_cases (t : Word) (s rest : State) :
    (s.rejectsTarget t = false ∧ jumpTo t s rest = .next (rest.writePc t)) ∨
    (s.rejectsTarget t = true ∧ jumpTo t s rest = fatal (.oddTarget t s.fetchPc) s) := by
  unfold jumpTo
  cases h : s.rejectsTarget t
  · exact .inl ⟨rfl, rfl⟩
  · exact .inr ⟨rfl, rfl⟩

theorem rejectsTarget_iff (s : State) (t : Word) :
    s.rejectsTarget t = true ↔ s.params.oddPc = .fault ∧ t.toNat % 2 = 1 := by
  simp [State.rejectsTarget, BitVec.getLsbD, Nat.testBit_zero]

/-! ## The stack -/

/-- What a push leaves in each slot. -/
theorem getElem_push_stack (s : State) (a : Word) (j : Nibble) :
    (s.push a).stack[j] = if j = s.sp + 1 then a else s.stack[j] := by
  simp only [State.push, Fin.getElem_fin, Vector.getElem_set, Fin.val_inj, eq_comm]

/-! ## The draws and the wait -/

/-- A pick from a non-empty list is one of its elements; from the empty list there is none. -/
theorem pickKey_cases (draw : Nat) (keys : List Nibble) :
    (keys = [] ∧ pickKey draw keys = none) ∨ (∃ k ∈ keys, pickKey draw keys = some k) := by
  cases h : keys with
  | nil => exact .inl ⟨rfl, rfl⟩
  | cons k ks =>
    have hlt : draw % (k :: ks).length < (k :: ks).length := Nat.mod_lt _ (by simp)
    exact .inr ⟨_, List.getElem_mem hlt, by rw [pickKey, List.getElem?_eq_getElem hlt]⟩

theorem mem_newlyPressed (key snap : Vector Bool 16) (k : Nibble) :
    k ∈ newlyPressed key snap ↔ key[k] = true ∧ snap[k] = false := by
  simp [newlyPressed, mem_nibbles]

/-- All that the step of a waiting core can do. -/
theorem waitStep_cases (x : Nibble) (snap : Vector Bool 16) (s : State) :
    (newlyPressed s.key snap = [] ∧ waitStep x snap s = { s with mode := .waitingForKey x s.key }) ∨
    (∃ k ∈ newlyPressed s.key snap, waitStep x snap s = s.resume x k) := by
  obtain ⟨hnil, hp⟩ | ⟨k, hk, hp⟩ := pickKey_cases s.keyRand.next.1 (newlyPressed s.key snap)
  · exact .inl ⟨hnil, by simp [waitStep, hp]⟩
  · exact .inr ⟨k, hk, by simp [waitStep, hp]⟩

/-! ## The load -/

theorem programFits_iff (bytes : List Byte) : programFits bytes = true ↔ bytes.length ≤ 3584 :=
  decide_eq_true_iff

/-- All that a load can do: write its bytes, or leave the state as it is and say so. -/
theorem loadTx_cases (bytes : List Byte) (s : State) :
    (bytes.length ≤ 3584 ∧ loadTx bytes s = s.storeBytes 0x200 bytes ∧ loadResponse bytes = .done) ∨
    (3584 < bytes.length ∧ loadTx bytes s = s ∧ loadResponse bytes = .programTooLarge) := by
  cases h : programFits bytes
  · exact .inr ⟨Nat.lt_of_not_le fun hle => by simp [(programFits_iff bytes).mpr hle] at h,
      by simp [loadTx, h], by simp [loadResponse, h]⟩
  · exact .inl ⟨(programFits_iff bytes).mp h, by simp [loadTx, h, Config.programBase], by simp [loadResponse, h]⟩

/-- A load keeps the canonical form of memory. -/
theorem wf_loadTx (bytes : List Byte) (s : State) (hwf : Memory.wf s.params s.mem = true) :
    Memory.wf (loadTx bytes s).params (loadTx bytes s).mem = true := by
  obtain ⟨hle, h, -⟩ | ⟨-, h, -⟩ := loadTx_cases bytes s
  · rw [h]; exact wf_storeBytes s 0x200 bytes (by simp only [Config.memSize]; omega) hwf
  · rw [h]; exact hwf

/-! ## The step -/

/-- All that a step can do, by the mode. -/
theorem step_running {s : State} (h : s.mode = .running) : step s = stepRunning s := by simp [step, h]

theorem step_waiting {s : State} {x : Nibble} {snap : Vector Bool 16} (h : s.mode = .waitingForKey x snap) :
    step s = .next (waitStep x snap s) := by simp [step, h]

theorem step_halted {s : State} {e : FatalError} (h : s.mode = .halted e) : step s = .next s := by simp [step, h]

/-- All that a running step can do: the fetch raises, the word is unknown, or it is dispatched. -/
theorem stepRunning_cases (s : State) :
    (4096 < s.pc.toNat + 2 ∧ stepRunning s = fatal (.addressOutOfRange (max s.pc.toNat 4096) s.pc) s) ∨
    (s.pc.toNat + 2 ≤ 4096 ∧ decode s.fetchWord = none ∧
      stepRunning s = fatal (.unknownOpcode s.fetchWord s.pc) s.advance) ∨
    (s.pc.toNat + 2 ≤ 4096 ∧ ∃ i, decode s.fetchWord = some i ∧ stepRunning s = exec i s.advance) := by
  by_cases h : 4096 < s.pc.toNat + 2
  · exact .inl ⟨h, by simp [stepRunning, firstOutOfRange_eq_some.mpr ⟨by omega, h, rfl⟩, fetchFault]⟩
  · have hn : firstOutOfRange s.pc.toNat 2 = none := firstOutOfRange_eq_none.mpr (by omega)
    cases hd : decode s.fetchWord with
    | none => exact .inr (.inl ⟨by omega, rfl, by simp [stepRunning, hn, stepDecoded, hd, unknownOpcode]⟩)
    | some i => exact .inr (.inr ⟨by omega, i, rfl, by simp [stepRunning, hn, stepDecoded, hd]⟩)

end Sys2Proof.Machine
end

