-- ==== Sys2Proof/Laws/Frames.lean ====
section
/-! SUPPORT. The frame of each update: which parts of the state it may change. -/

namespace Sys2Proof.Machine

/-- Nothing changes from a state to itself. -/
theorem Part.same_refl (p : Part) (s : State) : p.Same s s := by
  cases p <;> simp [Part.Same]

theorem Part.same_trans {p : Part} {s t u : State} (h₁ : p.Same s t) (h₂ : p.Same t u) : p.Same s u := by
  cases p <;> simp_all [Part.Same]

theorem OnlyChanges.refl (parts : List Part) (s : State) : OnlyChanges parts s s := fun p _ => p.same_refl s

/-- Frames compose. -/
theorem OnlyChanges.trans {parts : List Part} {s t u : State} (h₁ : OnlyChanges parts s t)
    (h₂ : OnlyChanges parts t u) : OnlyChanges parts s u := fun p hp => Part.same_trans (h₁ p hp) (h₂ p hp)

/-- A frame with a shorter list is stronger. -/
theorem OnlyChanges.mono {parts more : List Part} {s t : State} (h : OnlyChanges parts s t)
    (hsub : ∀ p ∈ parts, p ∈ more) : OnlyChanges more s t := fun p hp => h p fun hin => hp (hsub p hin)

theorem onlyChanges_writeV (s : State) (x : Nibble) (b : Byte) : OnlyChanges [.v] s (s.writeV x b) := by
  intro p hp; cases p <;> simp_all [Part.Same, State.readByte]

theorem onlyChanges_writeVAndFlag (s : State) (x : Nibble) (b : Byte) (c : Bool) :
    OnlyChanges [.v] s (s.writeVAndFlag x b c) :=
  (onlyChanges_writeV s x b).trans (onlyChanges_writeV _ vf _)

theorem onlyChanges_writeI (s : State) (a : Word) : OnlyChanges [.i] s (s.writeI a) := by
  intro p hp; cases p <;> simp_all [Part.Same, State.readByte, State.readV]

theorem onlyChanges_writePc (s : State) (a : Word) : OnlyChanges [.pc] s (s.writePc a) := by
  intro p hp; cases p <;> simp_all [Part.Same, State.readByte, State.readV]

theorem onlyChanges_skipIf (s : State) (c : Bool) : OnlyChanges [.pc] s (s.skipIf c) := by
  cases c
  · exact OnlyChanges.refl _ s
  · exact onlyChanges_writePc s _

theorem onlyChanges_raise (s : State) (e : FatalError) : OnlyChanges [.mode] s (s.raise e) := by
  intro p hp; cases p <;> simp_all [Part.Same, State.readByte, State.readV]

theorem onlyChanges_push (s : State) (a : Word) : OnlyChanges [.sp, .stack] s (s.push a) := by
  intro p hp; cases p <;> simp_all [Part.Same, State.readByte, State.readV]

theorem onlyChanges_drop (s : State) : OnlyChanges [.sp] s s.drop := by
  intro p hp; cases p <;> simp_all [Part.Same, State.readByte, State.readV]

theorem onlyChanges_storeBytes (s : State) (a : Nat) (bs : List Byte) : OnlyChanges [.mem] s (s.storeBytes a bs) := by
  intro p hp; cases p <;> simp_all [Part.Same, State.readV]

theorem onlyChanges_loadTx (bytes : List Byte) (s : State) : OnlyChanges [.mem] s (loadTx bytes s) := by
  obtain ⟨-, h, -⟩ | ⟨-, h, -⟩ := loadTx_cases bytes s <;> rw [h]
  · exact onlyChanges_storeBytes s 0x200 bytes
  · exact OnlyChanges.refl _ s

theorem onlyChanges_storeRegs (s : State) (r : Nat) (bs : List Byte) : OnlyChanges [.v] s (s.storeRegs r bs) := by
  intro p hp; cases p <;> simp_all [Part.Same, State.readByte]

theorem onlyChanges_resume (s : State) (x k : Nibble) : OnlyChanges [.v, .mode, .keyRand] s (s.resume x k) := by
  intro p hp; cases p <;> simp_all [Part.Same, State.readByte]

/-- A block store's bytes are all that it changes in memory. -/
theorem memKeptOutside_storeBytes (s : State) (a : Nat) (bs : List Byte) :
    MemKeptOutside a bs.length s (s.storeBytes a bs) := fun _ h => readByte_storeBytes_outside s a bs h

theorem regsKeptBut_writeV (s : State) (x : Nibble) (b : Byte) : RegsKeptBut x s (s.writeV x b) :=
  fun _ h => readV_writeV_ne s b h

/-- What a fatal error does: it answers a next state that differs in the mode alone. -/
theorem stopsWith_fatal (e : FatalError) (s : State) : StopsWith e s (fatal e s) :=
  ⟨s.raise e, rfl, rfl, onlyChanges_raise s e⟩

end Sys2Proof.Machine
end

