-- ==== Sys2Proof/Laws/Exec.lean ====
section
/-! SUPPORT. The inversion lemma of `exec`: all that an instruction can do, said once. A claim over every instruction splits on
it instead of unfolding the meanings. -/

namespace Sys2Proof.Machine

/-- What an instruction does where it raises no error: the one update it makes, with the checks that let it through. -/
def ExecEffect (i : Instr) (s t : State) : Prop :=
  match i with
  | .cls => t = { s with disp := Vector.replicate 2048 false }
  | .ret => s.sp ≠ 0 ∧ t = s.drop.writePc s.top
  | .sys _ => t = s
  | .jp n => s.rejectsTarget (immAddr n) = false ∧ t = s.writePc (immAddr n)
  | .call n => s.rejectsTarget (immAddr n) = false ∧ s.sp ≠ 15 ∧ t = (s.push s.pc).writePc (immAddr n)
  | .jpV0 n => s.rejectsTarget (tableTarget n (s.readV 0)) = false ∧ t = s.writePc (tableTarget n (s.readV 0))
  | .seByte _ _ | .sneByte _ _ | .seReg _ _ | .sneReg _ _ | .skp _ | .sknp _ => ∃ c, t = s.skipIf c
  | .ldByte x _ | .addByte x _ | .ldReg x _ | .orReg x _ | .andReg x _ | .xorReg x _ | .ldVxDt x => ∃ b, t = s.writeV x b
  | .addReg x _ | .sub x _ | .shr x _ | .subn x _ | .shl x _ => ∃ b c, t = s.writeVAndFlag x b c
  | .ldI _ | .addIVx _ | .ldFVx _ => ∃ a, t = s.writeI a
  | .rnd x k => t = { s.writeV x (s.rand.next.1 &&& k) with rand := s.rand.next.2 }
  | .drw _ _ _ => ∃ d b, t = { s with disp := d }.writeV vf b
  | .ldVxK x => t = { s with mode := .waitingForKey x s.key }
  | .ldDtVx x => t = { s with dt := s.readV x }
  | .ldStVx x => t = { s with st := s.readV x }
  | .ldBVx x => s.i.toNat + 3 ≤ 4096 ∧ t = s.storeBytes s.i.toNat (bcdDigits (s.readV x))
  | .ldMemVx x => s.i.toNat + (x.val + 1) ≤ 4096 ∧ t = s.storeBytes s.i.toNat (s.regsUpTo x)
  | .ldVxMem x => ∃ bs, bs.length = x.val + 1 ∧ t = s.storeRegs 0 bs

/-- If `exec i s` answers `t`, then either a truthful error was raised, or `t` is `s` after `i`'s one update. -/
theorem exec_cases {i : Instr} {s t : State} (h : exec i s = .next t) :
    (∃ e, t = s.raise e ∧ e.Truthful s.params) ∨ ExecEffect i s t := by
  have hi := s.i.isLt
  cases i <;> simp only [exec] at h
  case ret =>
    unfold execRet at h; split at h
    · injection h with h; exact .inl ⟨_, h.symm, trivial⟩
    · rename_i hs; injection h with h; exact .inr ⟨by simpa [State.stackEmpty] using hs, h.symm⟩
  case jp n =>
    obtain ⟨h1, h2⟩ | ⟨h1, h2⟩ := jumpTo_cases (immAddr n) s s <;> rw [execJp, h2] at h <;> injection h with h
    · exact .inr ⟨h1, h.symm⟩
    · exact .inl ⟨_, h.symm, (rejectsTarget_iff _ _).mp h1⟩
  case jpV0 n =>
    obtain ⟨h1, h2⟩ | ⟨h1, h2⟩ := jumpTo_cases (tableTarget n (s.readV 0)) s s <;> rw [execJpV0, h2] at h <;> injection h with h
    · exact .inr ⟨h1, h.symm⟩
    · exact .inl ⟨_, h.symm, (rejectsTarget_iff _ _).mp h1⟩
  case call n =>
    unfold execCall at h; split at h
    · injection h with h; exact .inl ⟨_, h.symm, trivial⟩
    · rename_i hs
      obtain ⟨h1, h2⟩ | ⟨h1, h2⟩ := jumpTo_cases (immAddr n) s (s.push s.pc) <;> rw [h2] at h <;> injection h with h
      · exact .inr ⟨h1, by simpa [State.stackFull] using hs, h.symm⟩
      · exact .inl ⟨_, h.symm, (rejectsTarget_iff _ _).mp h1⟩
  case ldFVx x =>
    obtain ⟨h1, h2⟩ | ⟨h1, h2⟩ := withNibble_cases (s.readV x) s fun d => .next (s.writeI (glyphAddr s.params d)) <;> rw [execLdFVx, h2] at h <;> injection h with h
    · exact .inr ⟨_, h.symm⟩
    · exact .inl ⟨_, h.symm, by simp [FatalError.Truthful]; omega⟩
  case skp x =>
    obtain ⟨h1, h2⟩ | ⟨h1, h2⟩ := withNibble_cases (s.readV x) s fun k => .next (s.skipIf s.key[k]) <;> rw [execSkp, h2] at h <;> injection h with h
    · exact .inr ⟨_, h.symm⟩
    · exact .inl ⟨_, h.symm, by simp [FatalError.Truthful]; omega⟩
  case sknp x =>
    obtain ⟨h1, h2⟩ | ⟨h1, h2⟩ := withNibble_cases (s.readV x) s fun k => .next (s.skipIf (!s.key[k])) <;> rw [execSknp, h2] at h <;> injection h with h
    · exact .inr ⟨_, h.symm⟩
    · exact .inl ⟨_, h.symm, by simp [FatalError.Truthful]; omega⟩
  case ldBVx x =>
    obtain ⟨h1, h2⟩ | ⟨h1, h2⟩ := guardRange_cases s.i.toNat 3 s (.next (s.storeBytes s.i.toNat (bcdDigits (s.readV x)))) <;> rw [execLdBVx, h2] at h <;> injection h with h
    · exact .inr ⟨by omega, h.symm⟩
    · exact .inl ⟨_, h.symm, by simp [FatalError.Truthful]; omega⟩
  case ldMemVx x =>
    obtain ⟨h1, h2⟩ | ⟨h1, h2⟩ := guardRange_cases s.i.toNat (x.val+1) s (.next (s.storeBytes s.i.toNat (s.regsUpTo x))) <;> rw [execLdMemVx, h2] at h <;> injection h with h
    · exact .inr ⟨by omega, h.symm⟩
    · exact .inl ⟨_, h.symm, by simp [FatalError.Truthful]; omega⟩
  case ldVxMem x =>
    obtain ⟨h1, h2⟩ | ⟨h1, h2⟩ := guardRange_cases s.i.toNat (x.val+1) s (.next (s.storeRegs 0 (s.loadBytes s.i.toNat (x.val + 1)))) <;> rw [execLdVxMem, h2] at h <;> injection h with h
    · exact .inr ⟨_, by simp, h.symm⟩
    · exact .inl ⟨_, h.symm, by simp [FatalError.Truthful]; omega⟩
  case drw x y n =>
    obtain ⟨h1, h2⟩ | ⟨h1, h2⟩ := guardRange_cases s.i.toNat n.val s (.next ({ s with disp := (drawSprite x y n s).1 }.writeV vf (flagByte (drawSprite x y n s).2))) <;> rw [execDrw, h2] at h <;> injection h with h
    · exact .inr ⟨_, _, h.symm⟩
    · exact .inl ⟨_, h.symm, by simp [FatalError.Truthful]; omega⟩
  case cls => injection h with h; exact .inr h.symm
  case sys => injection h with h; exact .inr h.symm
  case rnd => injection h with h; exact .inr h.symm
  case ldVxK => injection h with h; exact .inr h.symm
  case ldDtVx => injection h with h; exact .inr h.symm
  case ldStVx => injection h with h; exact .inr h.symm
  case addReg => injection h with h; exact .inr ⟨_, _, h.symm⟩
  case sub => injection h with h; exact .inr ⟨_, _, h.symm⟩
  case shr => injection h with h; exact .inr ⟨_, _, h.symm⟩
  case subn => injection h with h; exact .inr ⟨_, _, h.symm⟩
  case shl => injection h with h; exact .inr ⟨_, _, h.symm⟩
  all_goals injection h with h; exact .inr ⟨_, h.symm⟩

end Sys2Proof.Machine
end

