-- ==== Sys2Proof/Laws/PerInstr.lean ====
section
/-! SUPPORT. Per instruction: the encoder puts every fixed field and every operand where the row of spec/opcode_table.json puts
it (its "fixed" and "fields"). -/

namespace Sys2Proof.Laws.EncodeMatchesRow

/-- A field of a row: bits `hi` down to `lo` hold `value`. -/
structure Bits where
  hi    : Nat
  lo    : Nat
  value : Nat

/-- The row's fixed fields, then its operand fields, as spec/opcode_table.json lists them. -/
def rowBits : Instr → List Bits
  | .cls => [⟨15, 0, 224⟩]
  | .ret => [⟨15, 0, 238⟩]
  | .sys nnn => [⟨15, 12, 0⟩, ⟨11, 0, nnn.toNat⟩]
  | .jp nnn => [⟨15, 12, 1⟩, ⟨11, 0, nnn.toNat⟩]
  | .call nnn => [⟨15, 12, 2⟩, ⟨11, 0, nnn.toNat⟩]
  | .seByte x kk => [⟨15, 12, 3⟩, ⟨11, 8, x.val⟩, ⟨7, 0, kk.toNat⟩]
  | .sneByte x kk => [⟨15, 12, 4⟩, ⟨11, 8, x.val⟩, ⟨7, 0, kk.toNat⟩]
  | .seReg x y => [⟨15, 12, 5⟩, ⟨3, 0, 0⟩, ⟨11, 8, x.val⟩, ⟨7, 4, y.val⟩]
  | .ldByte x kk => [⟨15, 12, 6⟩, ⟨11, 8, x.val⟩, ⟨7, 0, kk.toNat⟩]
  | .addByte x kk => [⟨15, 12, 7⟩, ⟨11, 8, x.val⟩, ⟨7, 0, kk.toNat⟩]
  | .ldReg x y => [⟨15, 12, 8⟩, ⟨3, 0, 0⟩, ⟨11, 8, x.val⟩, ⟨7, 4, y.val⟩]
  | .orReg x y => [⟨15, 12, 8⟩, ⟨3, 0, 1⟩, ⟨11, 8, x.val⟩, ⟨7, 4, y.val⟩]
  | .andReg x y => [⟨15, 12, 8⟩, ⟨3, 0, 2⟩, ⟨11, 8, x.val⟩, ⟨7, 4, y.val⟩]
  | .xorReg x y => [⟨15, 12, 8⟩, ⟨3, 0, 3⟩, ⟨11, 8, x.val⟩, ⟨7, 4, y.val⟩]
  | .addReg x y => [⟨15, 12, 8⟩, ⟨3, 0, 4⟩, ⟨11, 8, x.val⟩, ⟨7, 4, y.val⟩]
  | .sub x y => [⟨15, 12, 8⟩, ⟨3, 0, 5⟩, ⟨11, 8, x.val⟩, ⟨7, 4, y.val⟩]
  | .shr x y => [⟨15, 12, 8⟩, ⟨3, 0, 6⟩, ⟨11, 8, x.val⟩, ⟨7, 4, y.val⟩]
  | .subn x y => [⟨15, 12, 8⟩, ⟨3, 0, 7⟩, ⟨11, 8, x.val⟩, ⟨7, 4, y.val⟩]
  | .shl x y => [⟨15, 12, 8⟩, ⟨3, 0, 14⟩, ⟨11, 8, x.val⟩, ⟨7, 4, y.val⟩]
  | .sneReg x y => [⟨15, 12, 9⟩, ⟨3, 0, 0⟩, ⟨11, 8, x.val⟩, ⟨7, 4, y.val⟩]
  | .ldI nnn => [⟨15, 12, 10⟩, ⟨11, 0, nnn.toNat⟩]
  | .jpV0 nnn => [⟨15, 12, 11⟩, ⟨11, 0, nnn.toNat⟩]
  | .rnd x kk => [⟨15, 12, 12⟩, ⟨11, 8, x.val⟩, ⟨7, 0, kk.toNat⟩]
  | .drw x y n => [⟨15, 12, 13⟩, ⟨11, 8, x.val⟩, ⟨7, 4, y.val⟩, ⟨3, 0, n.val⟩]
  | .skp x => [⟨15, 12, 14⟩, ⟨7, 0, 158⟩, ⟨11, 8, x.val⟩]
  | .sknp x => [⟨15, 12, 14⟩, ⟨7, 0, 161⟩, ⟨11, 8, x.val⟩]
  | .ldVxDt x => [⟨15, 12, 15⟩, ⟨7, 0, 7⟩, ⟨11, 8, x.val⟩]
  | .ldVxK x => [⟨15, 12, 15⟩, ⟨7, 0, 10⟩, ⟨11, 8, x.val⟩]
  | .ldDtVx x => [⟨15, 12, 15⟩, ⟨7, 0, 21⟩, ⟨11, 8, x.val⟩]
  | .ldStVx x => [⟨15, 12, 15⟩, ⟨7, 0, 24⟩, ⟨11, 8, x.val⟩]
  | .addIVx x => [⟨15, 12, 15⟩, ⟨7, 0, 30⟩, ⟨11, 8, x.val⟩]
  | .ldFVx x => [⟨15, 12, 15⟩, ⟨7, 0, 41⟩, ⟨11, 8, x.val⟩]
  | .ldBVx x => [⟨15, 12, 15⟩, ⟨7, 0, 51⟩, ⟨11, 8, x.val⟩]
  | .ldMemVx x => [⟨15, 12, 15⟩, ⟨7, 0, 85⟩, ⟨11, 8, x.val⟩]
  | .ldVxMem x => [⟨15, 12, 15⟩, ⟨7, 0, 101⟩, ⟨11, 8, x.val⟩]

/-- Every field of the row has its value in the encoded word. -/
def Statement (i : Instr) : Prop :=
  ∀ b ∈ rowBits i, (encode i).toNat / 2 ^ b.lo % 2 ^ (b.hi + 1 - b.lo) = b.value

theorem cls : Statement .cls := by
  simp [Statement, rowBits, encode]

theorem ret : Statement .ret := by
  simp [Statement, rowBits, encode]

theorem sys (nnn : Addr12) : Statement (Instr.sys nnn) := by
  have := nnn.isLt
  simp [Statement, rowBits, encode, toNat_encNNN (f := 0) (by decide)]; omega

theorem jp (nnn : Addr12) : Statement (Instr.jp nnn) := by
  have := nnn.isLt
  simp [Statement, rowBits, encode, toNat_encNNN (f := 1) (by decide)]; omega

theorem call (nnn : Addr12) : Statement (Instr.call nnn) := by
  have := nnn.isLt
  simp [Statement, rowBits, encode, toNat_encNNN (f := 2) (by decide)]; omega

theorem seByte (x : Nibble) (kk : Byte) : Statement (Instr.seByte x kk) := by
  have := kk.isLt
  have := x.isLt
  simp [Statement, rowBits, encode, toNat_encXKK (f := 3) (by decide)]; omega

theorem sneByte (x : Nibble) (kk : Byte) : Statement (Instr.sneByte x kk) := by
  have := kk.isLt
  have := x.isLt
  simp [Statement, rowBits, encode, toNat_encXKK (f := 4) (by decide)]; omega

theorem seReg (x : Nibble) (y : Nibble) : Statement (Instr.seReg x y) := by
  have := x.isLt
  have := y.isLt
  simp [Statement, rowBits, encode, toNat_encXYN (f := 5) (by decide)]; omega

theorem ldByte (x : Nibble) (kk : Byte) : Statement (Instr.ldByte x kk) := by
  have := kk.isLt
  have := x.isLt
  simp [Statement, rowBits, encode, toNat_encXKK (f := 6) (by decide)]; omega

theorem addByte (x : Nibble) (kk : Byte) : Statement (Instr.addByte x kk) := by
  have := kk.isLt
  have := x.isLt
  simp [Statement, rowBits, encode, toNat_encXKK (f := 7) (by decide)]; omega

theorem ldReg (x : Nibble) (y : Nibble) : Statement (Instr.ldReg x y) := by
  have := x.isLt
  have := y.isLt
  simp [Statement, rowBits, encode, toNat_encXYN (f := 8) (by decide)]; omega

theorem orReg (x : Nibble) (y : Nibble) : Statement (Instr.orReg x y) := by
  have := x.isLt
  have := y.isLt
  simp [Statement, rowBits, encode, toNat_encXYN (f := 8) (by decide)]; omega

theorem andReg (x : Nibble) (y : Nibble) : Statement (Instr.andReg x y) := by
  have := x.isLt
  have := y.isLt
  simp [Statement, rowBits, encode, toNat_encXYN (f := 8) (by decide)]; omega

theorem xorReg (x : Nibble) (y : Nibble) : Statement (Instr.xorReg x y) := by
  have := x.isLt
  have := y.isLt
  simp [Statement, rowBits, encode, toNat_encXYN (f := 8) (by decide)]; omega

theorem addReg (x : Nibble) (y : Nibble) : Statement (Instr.addReg x y) := by
  have := x.isLt
  have := y.isLt
  simp [Statement, rowBits, encode, toNat_encXYN (f := 8) (by decide)]; omega

theorem sub (x : Nibble) (y : Nibble) : Statement (Instr.sub x y) := by
  have := x.isLt
  have := y.isLt
  simp [Statement, rowBits, encode, toNat_encXYN (f := 8) (by decide)]; omega

theorem shr (x : Nibble) (y : Nibble) : Statement (Instr.shr x y) := by
  have := x.isLt
  have := y.isLt
  simp [Statement, rowBits, encode, toNat_encXYN (f := 8) (by decide)]; omega

theorem subn (x : Nibble) (y : Nibble) : Statement (Instr.subn x y) := by
  have := x.isLt
  have := y.isLt
  simp [Statement, rowBits, encode, toNat_encXYN (f := 8) (by decide)]; omega

theorem shl (x : Nibble) (y : Nibble) : Statement (Instr.shl x y) := by
  have := x.isLt
  have := y.isLt
  simp [Statement, rowBits, encode, toNat_encXYN (f := 8) (by decide)]; omega

theorem sneReg (x : Nibble) (y : Nibble) : Statement (Instr.sneReg x y) := by
  have := x.isLt
  have := y.isLt
  simp [Statement, rowBits, encode, toNat_encXYN (f := 9) (by decide)]; omega

theorem ldI (nnn : Addr12) : Statement (Instr.ldI nnn) := by
  have := nnn.isLt
  simp [Statement, rowBits, encode, toNat_encNNN (f := 10) (by decide)]; omega

theorem jpV0 (nnn : Addr12) : Statement (Instr.jpV0 nnn) := by
  have := nnn.isLt
  simp [Statement, rowBits, encode, toNat_encNNN (f := 11) (by decide)]; omega

theorem rnd (x : Nibble) (kk : Byte) : Statement (Instr.rnd x kk) := by
  have := kk.isLt
  have := x.isLt
  simp [Statement, rowBits, encode, toNat_encXKK (f := 12) (by decide)]; omega

theorem drw (x : Nibble) (y : Nibble) (n : Nibble) : Statement (Instr.drw x y n) := by
  have := x.isLt
  have := y.isLt
  have := n.isLt
  simp [Statement, rowBits, encode, toNat_encXYN (f := 13) (by decide)]; omega

theorem skp (x : Nibble) : Statement (Instr.skp x) := by
  have := x.isLt
  simp [Statement, rowBits, encode, toNat_encXKK (f := 14) (by decide)]; omega

theorem sknp (x : Nibble) : Statement (Instr.sknp x) := by
  have := x.isLt
  simp [Statement, rowBits, encode, toNat_encXKK (f := 14) (by decide)]; omega

theorem ldVxDt (x : Nibble) : Statement (Instr.ldVxDt x) := by
  have := x.isLt
  simp [Statement, rowBits, encode, toNat_encXKK (f := 15) (by decide)]; omega

theorem ldVxK (x : Nibble) : Statement (Instr.ldVxK x) := by
  have := x.isLt
  simp [Statement, rowBits, encode, toNat_encXKK (f := 15) (by decide)]; omega

theorem ldDtVx (x : Nibble) : Statement (Instr.ldDtVx x) := by
  have := x.isLt
  simp [Statement, rowBits, encode, toNat_encXKK (f := 15) (by decide)]; omega

theorem ldStVx (x : Nibble) : Statement (Instr.ldStVx x) := by
  have := x.isLt
  simp [Statement, rowBits, encode, toNat_encXKK (f := 15) (by decide)]; omega

theorem addIVx (x : Nibble) : Statement (Instr.addIVx x) := by
  have := x.isLt
  simp [Statement, rowBits, encode, toNat_encXKK (f := 15) (by decide)]; omega

theorem ldFVx (x : Nibble) : Statement (Instr.ldFVx x) := by
  have := x.isLt
  simp [Statement, rowBits, encode, toNat_encXKK (f := 15) (by decide)]; omega

theorem ldBVx (x : Nibble) : Statement (Instr.ldBVx x) := by
  have := x.isLt
  simp [Statement, rowBits, encode, toNat_encXKK (f := 15) (by decide)]; omega

theorem ldMemVx (x : Nibble) : Statement (Instr.ldMemVx x) := by
  have := x.isLt
  simp [Statement, rowBits, encode, toNat_encXKK (f := 15) (by decide)]; omega

theorem ldVxMem (x : Nibble) : Statement (Instr.ldVxMem x) := by
  have := x.isLt
  simp [Statement, rowBits, encode, toNat_encXKK (f := 15) (by decide)]; omega

end Sys2Proof.Laws.EncodeMatchesRow
end

