-- ==== Sys2Proof/Tests/Slice0.lean ====
section
/-! SUPPORT. The model's own tests. Expected results are the worked examples and vectors of spec/95_test_vectors.md (their ids in
the comments) and the words are written out from the patterns of spec/30_encoding.md R78. Last come the witnesses: for each
statement with hypotheses, a concrete case that meets them. -/

namespace Sys2Proof.Machine

/-! ## Helpers -/

/-- The reset state with some general registers set. -/
def testRegs (rs : List (Nibble × Byte)) : State := rs.foldl (fun s r => s.writeV r.1 r.2) State.reset

/-- One step with the word `w` placed where it is fetched, seen through `f`. -/
def testStep {α : Type} (s : State) (w : Nat) (f : State → α) : Option α :=
  match step (s.withFetchWord 16 w) with
  | .next t => some (f t)
  | _ => none

/-- One step of the state as it is, seen through `f`. -/
def testNext {α : Type} (s : State) (f : State → α) : Option α :=
  match step s with
  | .next t => some (f t)
  | _ => none

/-- One key pressed, no other. -/
def testKey (k : Nibble) : Vector Bool 16 := resetKey.set k true

/-- Waiting for a key into V3 since a moment without keys, with keys 2 and 9 pressed now. -/
def testWaiting : State :=
  { State.reset with mode := .waitingForKey 3 resetKey, pc := 0x0202#16, key := (testKey 2).set 9 true }

/-- ODD_PC = Fault. -/
def testOddFault : State := State.resetWith { defaultParams with oddPc := .fault }

end Sys2Proof.Machine

open Sys2Proof Sys2Proof.Machine

/-! ## Well-formedness: each check refuses an ill-formed term -/

theorem test_wf_refuses_sys_with_cls_address : (Instr.sys 0x0E0#12).wf = false := by decide
theorem test_wf_refuses_sys_with_ret_address : (Instr.sys 0x0EE#12).wf = false := by decide
theorem test_wf_accepts_sys_beside_them : (Instr.sys 0x0E1#12).wf = true := by decide

/-! ## Decoding: a word written out bit by bit for every constructor -/

theorem test_decode_family_0 :
    decode 0b0000000011100000#16 = some .cls ∧ decode 0b0000000011101110#16 = some .ret ∧
    decode 0b0000000100100011#16 = some (.sys 0x123#12) ∧ decode 0b0000000000000000#16 = some (.sys 0x000#12) := by decide
theorem test_decode_addresses :
    decode 0b0001001000110100#16 = some (.jp 0x234#12) ∧ decode 0b0010000100100011#16 = some (.call 0x123#12) ∧
    decode 0b1010101111001101#16 = some (.ldI 0xBCD#12) ∧ decode 0b1011001000000110#16 = some (.jpV0 0x206#12) := by decide
theorem test_decode_register_and_byte :
    decode 0b0011001101000010#16 = some (.seByte 3 0x42#8) ∧ decode 0b0100001101000010#16 = some (.sneByte 3 0x42#8) ∧
    decode 0b0110101001111011#16 = some (.ldByte 0xA 0x7B#8) ∧ decode 0b0111000111111111#16 = some (.addByte 1 0xFF#8) ∧
    decode 0b1100001100001111#16 = some (.rnd 3 0x0F#8) := by decide
theorem test_decode_two_registers :
    decode 0b0101000100100000#16 = some (.seReg 1 2) ∧ decode 0b1001000100100000#16 = some (.sneReg 1 2) ∧
    decode 0b1101000100100101#16 = some (.drw 1 2 5) := by decide
theorem test_decode_family_8_logic :
    decode 0b1000010001010000#16 = some (.ldReg 4 5) ∧ decode 0b1000010001010001#16 = some (.orReg 4 5) ∧
    decode 0b1000010001010010#16 = some (.andReg 4 5) ∧ decode 0b1000010001010011#16 = some (.xorReg 4 5) := by decide
theorem test_decode_family_8_arithmetic :
    decode 0b1000010001010100#16 = some (.addReg 4 5) ∧ decode 0b1000010001010101#16 = some (.sub 4 5) ∧
    decode 0b1000010001010111#16 = some (.subn 4 5) := by decide
theorem test_decode_family_8_shifts :
    decode 0b1000010001010110#16 = some (.shr 4 5) ∧ decode 0b1000010001011110#16 = some (.shl 4 5) := by decide
theorem test_decode_family_E :
    decode 0b1110000010011110#16 = some (.skp 0) ∧ decode 0b1110000010100001#16 = some (.sknp 0) := by decide
theorem test_decode_family_F_timers :
    decode 0b1111001000000111#16 = some (.ldVxDt 2) ∧ decode 0b1111001000001010#16 = some (.ldVxK 2) ∧
    decode 0b1111001000010101#16 = some (.ldDtVx 2) ∧ decode 0b1111001000011000#16 = some (.ldStVx 2) := by decide
theorem test_decode_family_F_memory :
    decode 0b1111001000011110#16 = some (.addIVx 2) ∧ decode 0b1111001000101001#16 = some (.ldFVx 2) ∧
    decode 0b1111001000110011#16 = some (.ldBVx 2) ∧ decode 0b1111001001010101#16 = some (.ldMemVx 2) ∧
    decode 0b1111001001100101#16 = some (.ldVxMem 2) := by decide
/-- The unknown words of vector F6. -/
theorem test_decode_unknown_register_families :
    decode 0x5001#16 = none ∧ decode 0x5AB7#16 = none ∧ decode 0x9121#16 = none ∧ decode 0x8008#16 = none ∧
    decode 0x800F#16 = none := by decide
theorem test_decode_unknown_system_families :
    decode 0xE000#16 = none ∧ decode 0xE19F#16 = none ∧ decode 0xF00B#16 = none ∧ decode 0xF130#16 = none := by decide
theorem test_decode_bytes_are_big_endian :
    decodeBytes [0xAB#8, 0xCD#8, 0x77#8] = .ok (.ldI 0xBCD#12, [0x77#8]) ∧
    decodeBytes [0x50#8, 0x01#8] = .error (.unknown 0x5001#16) ∧ decodeBytes [0xAB#8] = .error .truncated := by decide

/-! ## Fetch and errors -/

/-- L1-1. -/
theorem test_fetch_worked_example :
    testNext ({ State.reset with pc := 2#16 }.storeBytes 2 [0xAB#8, 0xCD#8]) (fun t => (t.i, t.pc)) =
      some (0x0BCD#16, 0x0004#16) := by decide
/-- L1-11, F6. -/
theorem test_unknown_opcode : testStep State.reset 0x5001 (fun t => (t.mode, t.pc)) =
    some (.halted (.unknownOpcode 0x5001#16 0x0200#16), 0x0202#16) := by decide
/-- F3, F4, C21. -/
theorem test_fetch_past_memory :
    testNext { State.reset with pc := 0x1000#16 } (fun t => (t.mode, t.pc)) =
      some (.halted (.addressOutOfRange 0x1000 0x1000#16), 0x1000#16) ∧
    testNext { State.reset with pc := 0x0FFF#16 } (fun t => (t.mode, t.pc)) =
      some (.halted (.addressOutOfRange 0x1000 0x0FFF#16), 0x0FFF#16) ∧
    testNext { State.reset with pc := 0x1002#16 } (fun t => (t.mode, t.pc)) =
      some (.halted (.addressOutOfRange 0x1002 0x1002#16), 0x1002#16) := by decide
/-- F5: an odd `pc` fetches at `pc` and `pc + 1`. -/
theorem test_fetch_at_odd_pc : testStep { State.reset with pc := 0x0201#16 } 0x6A12 (fun t => (t.readV 0xA, t.pc)) =
    some (0x12#8, 0x0203#16) := by decide
/-- F1: the fetch at 0xFFE is legal. -/
theorem test_fetch_at_top : testStep { State.reset with pc := 0x0FFE#16 } 0x1200 (fun t => t.pc) = some 0x0200#16 := by decide

/-! ## Control flow -/

/-- L1-3. -/
theorem test_ret : testStep { State.reset with sp := 5, stack := resetStack.set 5 0x00FE#16 } 0x00EE
    (fun t => (t.pc, t.sp, t.stack[5])) = some (0x00FE#16, 4, 0x00FE#16) := by decide
/-- C1. -/
theorem test_ret_underflow : testStep State.reset 0x00EE (fun t => (t.mode, t.pc, t.sp)) =
    some (.halted .stackUnderflow, 0x0202#16, 0) := by decide
/-- R121. -/
theorem test_sys : testStep State.reset 0x0123 (fun t => (t.pc, t.mode)) = some (0x0202#16, .running) := by decide
/-- C3. -/
theorem test_jp : testStep State.reset 0x1234 (fun t => t.pc) = some 0x0234#16 := by decide
/-- C6. -/
theorem test_jp_odd_fault : testStep testOddFault 0x1123 (fun t => (t.mode, t.pc)) =
    some (.halted (.oddTarget 0x0123#16 0x0200#16), 0x0202#16) := by decide
/-- L1-4. -/
theorem test_call : testStep { State.reset with pc := 0x0454#16 } 0x2123 (fun t => (t.pc, t.sp, t.stack[1])) =
    some (0x0123#16, 1, 0x0456#16) := by decide
/-- C9: StackOverflow before OddTarget. -/
theorem test_call_overflow_first : testStep { testOddFault with sp := 15 } 0x2123 (fun t => (t.mode, t.pc, t.sp)) =
    some (.halted .stackOverflow, 0x0202#16, 15) := by decide
/-- C11, C12. -/
theorem test_se_byte :
    testStep (testRegs [(3, 0x42)]) 0x3342 (fun t => t.pc) = some 0x0204#16 ∧
    testStep (testRegs [(3, 0x41)]) 0x3342 (fun t => t.pc) = some 0x0202#16 := by decide
/-- C14, C15. -/
theorem test_sne_byte :
    testStep (testRegs [(3, 0x41)]) 0x4342 (fun t => t.pc) = some 0x0204#16 ∧
    testStep (testRegs [(3, 0x42)]) 0x4342 (fun t => t.pc) = some 0x0202#16 := by decide
/-- C16, C17. -/
theorem test_se_reg :
    testStep (testRegs [(1, 7), (2, 7)]) 0x5120 (fun t => t.pc) = some 0x0204#16 ∧
    testStep (testRegs [(1, 7), (2, 8)]) 0x5120 (fun t => t.pc) = some 0x0202#16 := by decide
/-- C19, C20. -/
theorem test_sne_reg :
    testStep (testRegs [(1, 7), (2, 8)]) 0x9120 (fun t => t.pc) = some 0x0204#16 ∧
    testStep (testRegs [(5, 9)]) 0x9550 (fun t => t.pc) = some 0x0202#16 := by decide
/-- C24, C26. -/
theorem test_jp_v0 :
    testStep (testRegs [(0, 0xFF)]) 0xBFFF (fun t => t.pc) = some 0x00FE#16 ∧
    testStep (testRegs [(0xA, 0x99)]) 0xBA00 (fun t => t.pc) = some 0x0A00#16 := by decide
/-- C25. -/
theorem test_jp_v0_odd_fault : testStep (testOddFault.writeV 0 1#8) 0xB200 (fun t => (t.mode, t.pc)) =
    some (.halted (.oddTarget 0x0201#16 0x0200#16), 0x0202#16) := by decide

/-! ## Register loads and the ALU -/

/-- A1. -/
theorem test_ld_byte : testStep State.reset 0x6A7B (fun t => t.readV 0xA) = some 0x7B#8 := by decide
/-- A3, A5. -/
theorem test_add_byte :
    testStep (testRegs [(1, 0xFF), (0xF, 0x77)]) 0x7102 (fun t => (t.readV 1, t.readV vf)) = some (0x01#8, 0x77#8) ∧
    testStep (testRegs [(0xF, 0x01)]) 0x7FFF (fun t => t.readV vf) = some 0x00#8 := by decide
/-- A6. -/
theorem test_ld_reg : testStep (testRegs [(2, 0x33), (0xF, 0x77)]) 0x8120 (fun t => (t.readV 1, t.readV vf)) =
    some (0x33#8, 0x77#8) := by decide
/-- A7. -/
theorem test_or : testStep (testRegs [(1, 0x0F), (2, 0xF0), (0xF, 0x77)]) 0x8121 (fun t => (t.readV 1, t.readV vf)) =
    some (0xFF#8, 0x77#8) := by decide
/-- A8. -/
theorem test_and : testStep (testRegs [(1, 0x3C), (2, 0x0F), (0xF, 0x77)]) 0x8122 (fun t => (t.readV 1, t.readV vf)) =
    some (0x0C#8, 0x77#8) := by decide
/-- A9. -/
theorem test_xor : testStep (testRegs [(1, 0xFF), (2, 0x0F), (0xF, 0x77)]) 0x8123 (fun t => (t.readV 1, t.readV vf)) =
    some (0xF0#8, 0x77#8) := by decide
/-- A11 (L1-5), A15. -/
theorem test_add_reg :
    testStep (testRegs [(4, 0xFF), (5, 0x03)]) 0x8454 (fun t => (t.readV 4, t.readV vf)) = some (0x02#8, 1#8) ∧
    testStep (testRegs [(0xF, 0xFF), (1, 0x01)]) 0x8F14 (fun t => t.readV vf) = some 1#8 := by decide
/-- A16: the old VF as an addend. -/
theorem test_add_reg_vf_source : testStep (testRegs [(1, 0x10), (0xF, 0x05)]) 0x81F4
    (fun t => (t.readV 1, t.readV vf)) = some (0x15#8, 0#8) := by decide
/-- A18, A19. -/
theorem test_sub :
    testStep (testRegs [(1, 5), (2, 5), (0xF, 0x77)]) 0x8125 (fun t => (t.readV 1, t.readV vf)) = some (0x00#8, 0#8) ∧
    testStep (testRegs [(1, 3), (2, 5)]) 0x8125 (fun t => (t.readV 1, t.readV vf)) = some (0xFE#8, 0#8) := by decide
/-- A17, A21. -/
theorem test_sub_greater :
    testStep (testRegs [(1, 0x10), (2, 1)]) 0x8125 (fun t => (t.readV 1, t.readV vf)) = some (0x0F#8, 1#8) ∧
    testStep (testRegs [(0xF, 0x10), (1, 1)]) 0x8F15 (fun t => t.readV vf) = some 1#8 := by decide
/-- A24, A26. -/
theorem test_shr :
    testStep (testRegs [(4, 0x01), (0xA, 0x99)]) 0x84A6 (fun t => (t.readV 4, t.readV vf, t.readV 0xA)) =
      some (0x00#8, 1#8, 0x99#8) ∧
    testStep (testRegs [(0xF, 0x02)]) 0x8F06 (fun t => t.readV vf) = some 0#8 := by decide
/-- A27 (L1-6), A29. -/
theorem test_subn :
    testStep (testRegs [(4, 0x03), (5, 0xFF)]) 0x8457 (fun t => (t.readV 4, t.readV vf)) = some (0xFC#8, 1#8) ∧
    testStep (testRegs [(1, 0x10), (2, 0x01)]) 0x8127 (fun t => (t.readV 1, t.readV vf)) = some (0xF1#8, 0#8) := by decide
/-- A30 (L1-7), A31. -/
theorem test_shl :
    testStep (testRegs [(4, 0xF0)]) 0x840E (fun t => (t.readV 4, t.readV vf)) = some (0xE0#8, 1#8) ∧
    testStep (testRegs [(4, 0x40), (0xF, 0x77)]) 0x840E (fun t => (t.readV 4, t.readV vf)) = some (0x80#8, 0#8) := by decide
/-- A34, A36: a scripted byte, drawn even where the mask is 0. -/
theorem test_rnd :
    testStep { State.reset with rand := ⟨[0xA5#8], 0⟩ } 0xC30F (fun t => (t.readV 3, t.rand)) = some (0x05#8, ⟨[], 0⟩) ∧
    testStep { testRegs [(3, 0x77)] with rand := ⟨[0xFF#8], 0⟩ } 0xC300 (fun t => (t.readV 3, t.rand)) =
      some (0x00#8, ⟨[], 0⟩) := by decide

/-! ## The address register and memory -/

/-- M1. -/
theorem test_ld_i : testStep State.reset 0xAFFF (fun t => t.i) = some 0x0FFF#16 := by decide
/-- M3, M4. -/
theorem test_add_i :
    testStep { testRegs [(1, 1), (0xF, 0x77)] with i := 0x0FFF#16 } 0xF11E (fun t => (t.i, t.readV vf)) =
      some (0x1000#16, 0x77#8) ∧
    testStep { testRegs [(1, 1)] with i := 0xFFFF#16 } 0xF11E (fun t => t.i) = some 0x0000#16 := by decide
/-- M6, M8. -/
theorem test_ld_f :
    testStep (testRegs [(0, 0x05)]) 0xF029 (fun t => t.i) = some 0x0019#16 ∧
    testStep (testRegs [(0, 0x0F)]) 0xF029 (fun t => t.i) = some 0x004B#16 := by decide
/-- M9. -/
theorem test_ld_f_no_digit : testStep { testRegs [(0, 0x10)] with i := 0x0300#16 } 0xF029 (fun t => (t.mode, t.i)) =
    some (.halted (.operandOutOfRange 0x10#8 0x0200#16), 0x0300#16) := by decide
/-- M10 (L1-8), M13. -/
theorem test_ld_b :
    testStep { testRegs [(4, 123)] with i := 0x0300#16 } 0xF433 (fun t => t.loadBytes 0x300 3) = some [1#8, 2#8, 3#8] ∧
    testStep { testRegs [(0, 9)] with i := 0x0FFD#16 } 0xF033 (fun t => t.loadBytes 0xFFD 3) = some [0#8, 0#8, 9#8] := by
  decide
/-- M14, M15. -/
theorem test_ld_b_past_memory :
    testStep { State.reset with i := 0x0FFE#16 } 0xF033 (fun t => t.mode) =
      some (.halted (.addressOutOfRange 0x1000 0x0200#16)) ∧
    testStep { State.reset with i := 0x1005#16 } 0xF033 (fun t => t.mode) =
      some (.halted (.addressOutOfRange 0x1005 0x0200#16)) := by decide
/-- M16, M20. -/
theorem test_ld_mem :
    testStep { testRegs [(0, 1), (1, 2), (2, 3), (3, 4)] with i := 0x0300#16 } 0xF255
      (fun t => (t.loadBytes 0x300 4, t.i)) = some ([1#8, 2#8, 3#8, 0#8], 0x0300#16) ∧
    testStep { testRegs [(0, 0x42)] with i := 0x0FFF#16 } 0xF055 (fun t => (t.readByte 0xFFF, t.mode)) =
      some (0x42#8, .running) := by decide
/-- M19: nothing is written. -/
theorem test_ld_mem_past_memory : testStep { testRegs [(0, 7)] with i := 0x0FF1#16 } 0xFF55
    (fun t => (t.mode, t.readByte 0xFF1)) = some (.halted (.addressOutOfRange 0x1000 0x0200#16), 0#8) := by decide
/-- M21. -/
theorem test_ld_vx_mem : testStep ({ testRegs [(3, 0x77)] with i := 0x0300#16 }.storeBytes 0x300 [1, 2, 3, 4]) 0xF265
    (fun t => (t.readV 0, t.readV 1, t.readV 2, t.readV 3, t.i)) = some (1#8, 2#8, 3#8, 0x77#8, 0x0300#16) := by decide
/-- M22, M23. -/
theorem test_ld_vx_mem_edges :
    testStep ({ State.reset with i := 0x0300#16 }.storeBytes 0x30F [0x5A]) 0xFF65 (fun t => t.readV vf) = some 0x5A#8 ∧
    testStep { testRegs [(0, 0x77)] with i := 0x0FFE#16 } 0xF265 (fun t => (t.mode, t.readV 0)) =
      some (.halted (.addressOutOfRange 0x1000 0x0200#16), 0x77#8) := by decide

/-! ## The display -/

/-- L1-2 on one lit cell. -/
theorem test_cls : testStep { State.reset with disp := resetDisp.set 70 true } 0x00E0 (fun t => t.disp[70]) =
    some false := by decide
/-- D4 on the pixels at its edges: (61, 31) unlit, (62, 31), (63, 31), (0, 31), (5, 31) lit, (6, 31) unlit. -/
theorem test_drw_wraps : testStep ({ testRegs [(1, 62), (2, 31)] with i := 0x300#16 }.storeBytes 0x300 [0xFF]) 0xD121
    (fun t => ([61, 62, 63, 0, 5, 6].map fun cx : Fin 64 => t.pixelAt cx 31, t.readV vf)) =
      some ([false, true, true, true, true, false], 0#8) := by decide +kernel
/-- D9: one pixel goes out, its neighbour comes on, and VF is 1. -/
theorem test_drw_collision : testStep ({ testRegs [] with i := 0x300#16, disp := resetDisp.set 0 true }.storeBytes 0x300 [0xC0])
    0xD121 (fun t => (t.pixelAt 0 0, t.pixelAt 1 0, t.readV vf)) = some (false, true, 1#8) := by decide +kernel

/-! ## Keypad and timers -/

/-- K1, K2. -/
theorem test_skp :
    testStep { testRegs [(0, 5)] with key := testKey 5 } 0xE09E (fun t => t.pc) = some 0x0204#16 ∧
    testStep (testRegs [(0, 5)]) 0xE09E (fun t => t.pc) = some 0x0202#16 := by decide
/-- K3. -/
theorem test_skp_no_key : testStep (testRegs [(0, 0x10)]) 0xE09E (fun t => (t.mode, t.pc)) =
    some (.halted (.operandOutOfRange 0x10#8 0x0200#16), 0x0202#16) := by decide
/-- K4, K5. -/
theorem test_sknp :
    testStep (testRegs [(0, 5)]) 0xE0A1 (fun t => t.pc) = some 0x0204#16 ∧
    testStep { testRegs [(0, 5)] with key := testKey 5 } 0xE0A1 (fun t => t.pc) = some 0x0202#16 := by decide
/-- T1. -/
theorem test_ld_vx_dt : testStep { State.reset with dt := 0x3C#8 } 0xF107 (fun t => t.readV 1) = some 0x3C#8 := by decide
/-- K7. -/
theorem test_ld_vx_k : testStep State.reset 0xF30A (fun t => (t.mode, t.pc, t.outcome)) =
    some (.waitingForKey 3 resetKey, 0x0202#16, .waiting) := by decide
/-- K9, K12 with a scripted choice: of keys 2 and 9 the second. -/
theorem test_wait_resumes : testNext { testWaiting with keyRand := ⟨[1], 0⟩ } (fun t => (t.readV 3, t.mode, t.pc, t.outcome)) =
    some (0x09#8, .running, 0x0202#16, .executed) := by decide
/-- K10, K11: a held key does not end the wait, and the snapshot follows the keypad. -/
theorem test_wait_refreshes :
    testNext { State.reset with mode := .waitingForKey 3 (testKey 4), key := testKey 4 } (fun t => t.mode) =
      some (.waitingForKey 3 (testKey 4)) ∧
    testNext { State.reset with mode := .waitingForKey 3 (testKey 4) } (fun t => t.mode) =
      some (.waitingForKey 3 resetKey) := by decide
/-- T2. -/
theorem test_ld_dt_vx : testStep (testRegs [(2, 0x3C)]) 0xF215 (fun t => t.dt) = some 0x3C#8 := by decide
/-- T3. -/
theorem test_ld_st_vx : testStep (testRegs [(2, 0x02)]) 0xF218 (fun t => soundTx t) = some (0x02#8, true) := by decide

/-! ## Host transactions -/

/-- T5, T6, T8. -/
theorem test_tick :
    ((tickTx { State.reset with dt := 5#8 }).dt, (tickTx { State.reset with dt := 5#8 }).st) = (4#8, 0#8) ∧
    (tickTx { State.reset with dt := 5#8, mode := .halted .stackOverflow }).dt = 5#8 := by decide
/-- F12, H4: reset leaves a halt. -/
theorem test_reset : resetTx (State.reset.raise .stackOverflow) = State.reset := rfl
/-- H3 and the refusal of a load after a step. -/
theorem test_load :
    (match transact (.load [0x6A, 0x7B]) ⟨State.reset, false⟩ with
      | .next (u, _) => u.state.loadBytes 0x1FF 4
      | _ => []) = [0#8, 0x6A#8, 0x7B#8, 0#8] ∧
    (match transact (.load []) ⟨State.reset, true⟩ with
      | .refused r => some r
      | _ => none) = some .loadAfterStep := by decide
/-- H2, and R263's "the host decides what follows": an oversize load leaves the state as it is, and the step after it runs. -/
theorem test_load_too_large :
    (match transact (.load (List.replicate 3585 0xAA)) ⟨State.reset, false⟩ with
      | .next (u, r) => some (u.state.mem, u.stepped, r)
      | _ => none) = some ([], false, .programTooLarge) ∧
    (match transactAll [.load (List.replicate 3585 0xAA), .step 0#8 0] ⟨State.reset, false⟩ with
      | .next u => some u.state.pc
      | _ => none) = some 0x0202#16 := by decide +kernel

/-! ## Witnesses: concrete cases that meet the hypotheses of the statements, one for each hypothesis list -/

theorem witness_DecodeOfEncodeIsIdentity : (Instr.sys 0xFFF#12).wf = true := by decide
theorem witness_EncodeOfDecodeIsIdentity : decode 0x8FFE#16 = some (.shl 0xF 0xF) := by decide
theorem witness_RunningStepExecutesTheDecodedInstruction : ∃ (s : State) (i : Instr), s.mode = .running ∧
    s.pc.toNat + 1 = 0xFFF ∧ decode (joinBytes (s.readByte s.pc.toNat) (s.readByte (s.pc.toNat + 1))) = some i :=
  ⟨{ State.reset with pc := 0x0FFE#16 }, .sys 0#12, by decide⟩
theorem witness_FetchIsBigEndian : ∃ s : State, s.mode = .running ∧ s.pc = 2#16 ∧ s.readByte 2 = 0xAB#8 ∧
    s.readByte 3 = 0xCD#8 := ⟨{ State.reset with pc := 2#16 }.storeBytes 2 [0xAB, 0xCD], by decide⟩
theorem witness_FetchPastMemoryHalts : ∃ s : State, s.mode = .running ∧ s.pc.toNat + 1 = 0x1000 :=
  ⟨{ State.reset with pc := 0x0FFF#16 }, by decide⟩
theorem witness_UnknownOpcodeHalts : ∃ s : State, s.mode = .running ∧ s.pc.toNat + 1 = 0xFFF ∧
    decode s.fetchWord = none := ⟨{ State.reset with pc := 0x0FFE#16 }.withFetchWord 16 0x5001, by decide⟩
theorem witness_HaltedUntilReset : ∃ (u u' : Session) (e : FatalError),
    Transaction.reset ∉ [Transaction.step 0#8 0, .tick, .keyWrite 3 true] ∧ u.stepped = true ∧ u.state.mode = .halted e ∧
    transactAll [.step 0#8 0, .tick, .keyWrite 3 true] u = .next u' :=
  ⟨⟨State.reset.raise .stackOverflow, true⟩, ⟨keyWriteTx 3 true (State.reset.raise .stackOverflow), true⟩, .stackOverflow,
    by decide, rfl, rfl, rfl⟩
theorem witness_WaitingStepFollowsTheKeypad_resumes : ∃ (s : State) (x : Nibble) (snap : Vector Bool 16),
    s.mode = .waitingForKey x snap ∧ ∃ k : Nibble, s.key[k] = true ∧ snap[k] = false :=
  ⟨{ State.reset with mode := .waitingForKey 0xF resetKey, key := testKey 0xF }, 0xF, resetKey, rfl, 0xF, by decide⟩
theorem witness_WaitingStepFollowsTheKeypad_waits : ∃ (s : State) (x : Nibble) (snap : Vector Bool 16),
    s.mode = .waitingForKey x snap ∧ ∀ k : Nibble, s.key[k] = true → snap[k] = true :=
  ⟨{ State.reset with mode := .waitingForKey 0 (testKey 0), key := testKey 0 }, 0, testKey 0, by decide⟩
theorem witness_EveryNewlyPressedKeyCanBeChosen : ∃ (s : State) (x k : Nibble) (snap : Vector Bool 16),
    s.mode = .waitingForKey x snap ∧ s.key[k] = true ∧ snap[k] = false :=
  ⟨{ State.reset with mode := .waitingForKey 3 resetKey, key := (testKey 2).set 9 true }, 3, 9, resetKey, by decide⟩
theorem witness_EveryErrorIsPrecise_fetched : ∃ (s t : State) (e : FatalError), s.mode = .running ∧ step s = .next t ∧
    t.mode = .halted e ∧ s.pc.toNat + 1 ≤ 0xFFF :=
  ⟨State.reset.withFetchWord 16 0x5001, (State.reset.withFetchWord 16 0x5001).advance.raise (.unknownOpcode 0x5001 0x200),
    .unknownOpcode 0x5001 0x200, by decide, by rfl, by decide, by decide⟩
theorem witness_EveryErrorIsPrecise_fetch : ∃ (s t : State) (e : FatalError), s.mode = .running ∧ step s = .next t ∧
    t.mode = .halted e ∧ 0xFFF < s.pc.toNat + 1 :=
  ⟨{ State.reset with pc := 0x1000#16 }, { State.reset with pc := 0x1000#16 }.raise (.addressOutOfRange 0x1000 0x1000),
    .addressOutOfRange 0x1000 0x1000, by decide, by rfl, by decide, by decide⟩
theorem witness_StepsIgnoreTheDrawsTheyDoNotUse : ∃ s : State,
    (¬ (s.mode = .running ∧ s.pc.toNat + 1 ≤ 0xFFF ∧ ∃ x kk, decode s.fetchWord = some (.rnd x kk))) ∧
    ∀ x snap, s.mode ≠ .waitingForKey x snap :=
  ⟨State.reset, by
    have h : decode State.reset.fetchWord = some (.sys 0#12) := by decide
    simp [h], by intro x snap h; cases h⟩
theorem witness_StepIsTheTransactionWithItsOwnDraws : ∃ s t : State, step s = .next t := ⟨State.reset, State.reset.advance, by rfl⟩
theorem witness_OnlyListedInstructionsWriteARegister : ∃ (i : Instr) (s t : State) (r : Nibble),
    exec i s = .next t ∧ i.writesV r = false :=
  ⟨.ldVxMem 0xE, State.reset, State.reset.storeRegs 0 (State.reset.loadBytes 0 15), 0xF, by rfl, by decide⟩
theorem witness_OnlyCallAndRetReachTheStack : ∃ (i : Instr) (s t : State), i ≠ .ret ∧ (∀ nnn, i ≠ .call nnn) ∧
    exec i s = .next t :=
  ⟨.cls, State.reset, { State.reset with disp := Vector.replicate 2048 false }, by decide, (by intro n h; cases h), rfl⟩
theorem witness_TheCoreOnlyReadsTheKeypad : ∃ (i : Instr) (s t : State),
    (∀ x, i ≠ .skp x ∧ i ≠ .sknp x ∧ i ≠ .ldVxK x) ∧ exec i s = .next t :=
  ⟨.sys 0#12, State.reset, State.reset, by intro x; decide +revert, rfl⟩
theorem witness_OnlyBcdAndBlockStoreWriteMemory : ∃ (s t : State), exec (.ldMemVx 0xF) s = .next t :=
  ⟨State.reset, State.reset.storeBytes 0 (State.reset.regsUpTo 0xF), by rfl⟩
theorem witness_OtherStateIsWrittenOnlyByItsInstructions : ∃ s t : State, exec (.ldI 0xFFF#12) s = .next t ∧
    ∀ e, t.mode ≠ .halted e := ⟨State.reset, State.reset.writeI 0xFFF#16, by rfl, by intro e h; cases h⟩
theorem witness_SkipsOnKey : ∃ s u : State, (∃ k : Nibble, (s.readV 0).toNat = k.val) ∧ (s.readV 0).toNat = 0xF ∧
    0xF < (u.readV 0).toNat ∧ (u.readV 0).toNat = 0x10 :=
  ⟨testRegs [(0, 0xF)], testRegs [(0, 0x10)], ⟨0xF, by decide⟩, by decide⟩
theorem witness_JumpsReachTheirTarget : ∃ s u : State, s.params.oddPc = .allow ∧ u.params.oddPc = .fault ∧
    (0xFFF#12 : Addr12).toNat % 2 = 1 ∧ (0xFFE#12 : Addr12).toNat % 2 = 0 ∧
    ((0xFFF#12 : Addr12).toNat + (u.readV 0).toNat) % 2 = 1 ∧ ((0xFFE#12 : Addr12).toNat + (u.readV 0).toNat) % 2 = 0 :=
  ⟨State.reset, testOddFault, by decide⟩
theorem witness_CallPushesTheReturnAddress : ∃ s u w : State, s.sp.val = 14 ∧ s.params.oddPc = .allow ∧ u.sp.val = 15 ∧
    w.sp.val < 15 ∧ w.params.oddPc = .fault ∧ (0x123#12 : Addr12).toNat % 2 = 1 :=
  ⟨{ State.reset with sp := 14 }, { State.reset with sp := 15 }, testOddFault, by decide⟩
theorem witness_RetPopsTheReturnAddress : ∃ s u : State, s.sp.val = 1 ∧ u.sp.val = 0 :=
  ⟨{ State.reset with sp := 1 }, State.reset, by decide⟩
theorem witness_StackErrorsAreDetected : ∃ s u : State, s.sp.val = 15 ∧ u.sp.val = 0 :=
  ⟨{ State.reset with sp := 15 }, State.reset, by decide⟩
theorem witness_RetAfterCallReturns : ∃ (s t u : State), s.sp.val = 14 ∧ s.mode = .running ∧
    exec (.call 0x300#12) s = .next t ∧ t.mode = .running ∧ u.sp = t.sp ∧ ∀ j : Nibble, u.stack[j] = t.stack[j] :=
  ⟨{ State.reset with sp := 14 }, ({ State.reset with sp := 14 }.push 0x200#16).writePc 0x300#16,
    ({ State.reset with sp := 14 }.push 0x200#16).writePc 0x300#16, by decide, rfl, by rfl, rfl, rfl, fun _ => rfl⟩
theorem witness_IndexAddAndFontAddress : ∃ s u : State, (s.readV 0).toNat = 0xF ∧ (u.readV 0).toNat = 0x10 :=
  ⟨testRegs [(0, 0xF)], testRegs [(0, 0x10)], by decide⟩
theorem witness_BcdStoresThreeDigits : ∃ s u : State, Memory.wf s.params s.mem = true ∧ s.i.toNat + 2 = 0xFFF ∧
    Memory.wf u.params u.mem = true ∧ u.i.toNat + 2 = 0x1000 :=
  ⟨{ State.reset with i := 0xFFD#16 }, { State.reset with i := 0xFFE#16 }, by decide⟩
theorem witness_BlockStoreAndBlockLoad : ∃ s u : State, Memory.wf s.params s.mem = true ∧ s.i.toNat + (0xF : Nibble).val = 0xFFF ∧
    Memory.wf u.params u.mem = true ∧ u.i.toNat + (0xF : Nibble).val = 0x1000 :=
  ⟨{ State.reset with i := 0xFF0#16 }, { State.reset with i := 0xFF1#16 }, by decide⟩
theorem witness_StoreThenLoadRestoresRegisters : ∃ s t u : State, Memory.wf s.params s.mem = true ∧
    s.i.toNat + (2 : Nibble).val = 0xFFF ∧ exec (.ldMemVx 2) s = .next t ∧ OnlyChanges [.v, .pc] t u :=
  ⟨{ testRegs [(0, 1), (1, 2), (2, 3)] with i := 0xFFD#16 },
    { testRegs [(0, 1), (1, 2), (2, 3)] with i := 0xFFD#16 }.storeBytes 0xFFD [1, 2, 3],
    ({ testRegs [(0, 1), (1, 2), (2, 3)] with i := 0xFFD#16 }.storeBytes 0xFFD [1, 2, 3]).writeV 0 0#8,
    by decide, by decide, by rfl, (onlyChanges_writeV _ 0 0#8).mono (by decide)⟩
theorem witness_StoresReachTheNextFetch : ∃ s t : State, Memory.wf s.params s.mem = true ∧
    s.i.toNat + (1 : Nibble).val ≤ 0xFFF ∧ s.pc.toNat = s.i.toNat + (0 : Nibble).val ∧ exec (.ldMemVx 1) s = .next t :=
  ⟨{ State.reset with i := 0x202#16, pc := 0x202#16 },
    { State.reset with i := 0x202#16, pc := 0x202#16 }.storeBytes 0x202 [0, 0], by decide, by decide, by decide, by rfl⟩
theorem witness_CanonicalMemoriesThatReadAlikeAreEqual :
    Memory.wf defaultParams [(0x050, 1#8), (0xFFF, 7#8)] = true := by decide
theorem witness_DrawXorsTheWrappedSprite : ∃ s u : State, s.i.toNat + (0xF : Nibble).val = 0x1000 ∧
    u.i.toNat + (0xF : Nibble).val = 0x1001 := ⟨{ State.reset with i := 0xFF1#16 }, { State.reset with i := 0xFF2#16 }, by decide⟩
theorem witness_DrawXorsTheWrappedSprite_empty : ∃ s : State, (0 : Nibble).val = 0 ∧ 0x1000 ≤ s.i.toNat :=
  ⟨{ State.reset with i := 0xFFFF#16 }, by decide⟩
theorem witness_DrawingTwiceRestoresTheDisplay : ∃ s : State, (1 : Nibble) ≠ vf ∧ (2 : Nibble) ≠ vf ∧
    s.i.toNat + (0xF : Nibble).val = 0x1000 := ⟨{ State.reset with i := 0xFF1#16 }, by decide⟩
theorem witness_TimerMovesAndTick : ∃ s u : State, (∀ e, s.mode ≠ .halted e) ∧ u.mode = .halted .stackOverflow :=
  ⟨State.reset, State.reset.raise .stackOverflow, (by intro e h; cases h), rfl⟩
theorem witness_LoadWritesTheProgramOrRefuses : ∃ (s : State) (bytes more : List Byte), Memory.wf s.params s.mem = true ∧
    bytes.length = 3584 ∧ more.length = 3585 :=
  ⟨State.reset, List.replicate 3584 0xAA#8, List.replicate 3585 0xAA#8, rfl, List.length_replicate, List.length_replicate⟩
/-- The premises of the three statements that a step or a schedule keeps an invariant. -/
theorem witness_Invariants : ∃ (s t : State) (u u' : Session), s.Inv ∧ s.EvenPc ∧ step s = .next t ∧ u.state.Inv ∧
    u.state.EvenPc ∧ transactAll [.tick, .step 0#8 0] u = .next u' :=
  ⟨State.reset, State.reset.advance, ⟨State.reset, false⟩, ⟨State.reset.advance, true⟩,
    ⟨rfl, by decide, by decide, by decide, fun e h => nomatch h⟩, fun h => (nomatch h), by rfl,
    ⟨rfl, by decide, by decide, by decide, fun e h => nomatch h⟩, fun h => (nomatch h), by rfl⟩
theorem witness_EvenPcUnderOddPcFault : ∃ (s t : State) (u u' : Session), s.params.oddPc = .fault ∧ s.EvenPc ∧
    step s = .next t ∧ u.state.params.oddPc = .fault ∧ u.state.Inv ∧ u.state.EvenPc ∧ transactAll [.step 0#8 0] u = .next u' :=
  ⟨testOddFault, testOddFault.advance, ⟨testOddFault, false⟩, ⟨testOddFault.advance, true⟩, rfl,
    fun _ => ⟨by decide, by decide⟩, by rfl, rfl, ⟨rfl, by decide, by decide, by decide, fun e h => nomatch h⟩,
    fun _ => ⟨by decide, by decide⟩, by rfl⟩
theorem witness_RandomByteIsMasked : ∃ s u : State, s.rand.script = 0xA5#8 :: [] ∧ u.rand.script = [] :=
  ⟨{ State.reset with rand := ⟨[0xA5#8], 0⟩ }, State.reset, rfl, rfl⟩
end

namespace Sys2Proof.Machine

/-! ## Independence from a part of the state

A part of the state does not matter to a meaning when overwriting that part commutes with running it. `mapNext` overwrites
the part in the answer; the two lemmas below carry any overwrite that commutes with `raise` and keeps `pc` through the
shared checks. -/

/-- The answer `r` with `f` applied to its next state, if it has one. -/
def mapNext (f : State → State) : Result → Result
  | .next t => .next (f t)
  | .fault r => .fault r
  | .refused r => .refused r

section
variable {f : State → State} {s : State} (hraise : ∀ e, f (s.raise e) = (f s).raise e) (hpc : (f s).pc = s.pc)
include hraise hpc

theorem guardRange_mapNext (a n : Nat) (rest : Result) :
    guardRange a n (f s) (mapNext f rest) = mapNext f (guardRange a n s rest) := by
  unfold guardRange
  split <;> simp [mapNext, fatal, hraise, State.fetchPc, hpc]

theorem withNibble_mapNext (b : Byte) (use : Nibble → Result) :
    withNibble b (f s) (fun d => mapNext f (use d)) = mapNext f (withNibble b s use) := by
  unfold withNibble
  split <;> simp [mapNext, fatal, hraise, State.fetchPc, hpc]

end

/-! ## Overwriting the stack -/

/-- `s` with another return stack. -/
def State.withStack (sp : Nibble) (stack : Vector Word 16) (s : State) : State := { s with sp := sp, stack := stack }

section
variable (sp : Nibble) (stack : Vector Word 16)

theorem skipIf_withStack (s : State) (c : Bool) :
    (s.withStack sp stack).skipIf c = (s.skipIf c).withStack sp stack := by
  cases c <;> rfl

theorem storeBytes_withStack (s : State) (a : Nat) (bs : List Byte) :
    (s.withStack sp stack).storeBytes a bs = (s.storeBytes a bs).withStack sp stack := by
  induction bs generalizing s a with
  | nil => rfl
  | cons b bs ih => exact ih (s.writeByte a b) (a + 1)

theorem storeRegs_withStack (s : State) (r : Nat) (bs : List Byte) :
    (s.withStack sp stack).storeRegs r bs = (s.storeRegs r bs).withStack sp stack := by
  induction bs generalizing s r with
  | nil => rfl
  | cons b bs ih => exact ih { s with v := s.v.setIfInBounds r b } (r + 1)

theorem loadBytes_withStack (s : State) (a n : Nat) : (s.withStack sp stack).loadBytes a n = s.loadBytes a n := by
  induction n generalizing a with
  | zero => rfl
  | succ n ih => exact congrArg (s.readByte a :: ·) (ih (a + 1))

theorem drawSprite_withStack (x y n : Nibble) (s : State) :
    drawSprite x y n (s.withStack sp stack) = drawSprite x y n s :=
  congrArg (drawRows (s.readV x).toNat (s.readV y).toNat · (s.disp, false)) (loadBytes_withStack sp stack s _ _)

theorem jumpTo_withStack (t : Word) (s : State) :
    jumpTo t (s.withStack sp stack) (s.withStack sp stack) = mapNext (State.withStack sp stack) (jumpTo t s s) := by
  have hrej : (s.withStack sp stack).rejectsTarget t = s.rejectsTarget t := rfl
  unfold jumpTo
  rw [hrej]
  split <;> rfl

/-- An instruction other than CALL and RET runs on any stack as on the state's own, and hands the stack on as it was. -/
theorem exec_withStack {i : Instr} (hret : i ≠ .ret) (hcall : ∀ nnn, i ≠ .call nnn) (s : State) :
    exec i (s.withStack sp stack) = mapNext (State.withStack sp stack) (exec i s) := by
  have hraise (e : FatalError) : (s.raise e).withStack sp stack = (s.withStack sp stack).raise e := rfl
  have hpc : (s.withStack sp stack).pc = s.pc := rfl
  cases i with
  | ret => exact absurd rfl hret
  | call nnn => exact absurd rfl (hcall nnn)
  | jp nnn => exact jumpTo_withStack sp stack (immAddr nnn) s
  | jpV0 nnn => exact jumpTo_withStack sp stack (tableTarget nnn (s.readV 0)) s
  | seByte | sneByte | seReg | sneReg => exact congrArg _ (skipIf_withStack sp stack s _)
  | skp | sknp =>
    refine Eq.trans ?_ (withNibble_mapNext hraise hpc _ _)
    exact congrArg (withNibble _ _) (funext fun k => congrArg _ (skipIf_withStack sp stack s _))
  | ldFVx x => exact withNibble_mapNext hraise hpc (s.readV x) fun d => .next (s.writeI (glyphAddr s.params d))
  | ldBVx | ldMemVx =>
    refine Eq.trans ?_ (guardRange_mapNext hraise hpc _ _ _)
    exact congrArg (guardRange _ _ _) (congrArg _ (storeBytes_withStack sp stack s _ _))
  | ldVxMem x =>
    refine Eq.trans ?_ (guardRange_mapNext hraise hpc _ _ _)
    simp only [exec, execLdVxMem, loadBytes_withStack, storeRegs_withStack]
    rfl
  | drw x y n =>
    refine Eq.trans ?_ (guardRange_mapNext hraise hpc _ _ _)
    simp only [exec, execDrw, drawSprite_withStack]
    rfl
  | cls | sys | ldByte | addByte | ldReg | orReg | andReg | xorReg | addReg | sub | shr | subn | shl | ldI | rnd
  | ldVxDt | ldVxK | ldDtVx | ldStVx | addIVx => rfl

end

/-- Settles O20. That the effect is the same on any stack is `exec_withStack`; on the state's own stack it says that the
answer carries that stack, which is the frame. -/
theorem onlyCallAndRetReachTheStack : Obligations.OnlyCallAndRetReachTheStack := by
  unfold Obligations.OnlyCallAndRetReachTheStack
  intro i s t hret hcall h
  have hany (sp : Nibble) (stack : Vector Word 16) : exec i (s.withStack sp stack) = .next (t.withStack sp stack) := by
    rw [exec_withStack sp stack hret hcall, h, mapNext]
  have hown : t = t.withStack s.sp s.stack := Host.Outcome.next.inj (h.symm.trans (hany s.sp s.stack))
  exact ⟨congrArg (·.sp) hown, fun j => congrArg (·.stack[j]) hown, hany⟩

end Sys2Proof.Machine

namespace Sys2Proof.Machine

/-! ## The fetch -/

/-- Bits 15:8 of the fetched word are the byte at the lower address (20 R57). -/
@[simp] theorem extractLsb_joinBytes_high (hi lo : Byte) : (joinBytes hi lo).extractLsb 15 8 = hi := by
  have := hi.isLt
  have := lo.isLt
  apply BitVec.eq_of_toNat_eq
  simp [joinBytes, Nat.shiftRight_eq_div_pow]
  omega

/-- Bits 7:0 of the fetched word are the byte at the higher address (20 R57). -/
@[simp] theorem extractLsb_joinBytes_low (hi lo : Byte) : (joinBytes hi lo).extractLsb 7 0 = lo := by
  have := lo.isLt
  apply BitVec.eq_of_toNat_eq
  simp [joinBytes]
  omega

/-- A running step whose two bytes are in memory and decode is dispatched with `pc` advanced (40 R101, R104). -/
theorem step_eq_exec_of_decode {s : State} {i : Instr} (hmode : s.mode = .running) (hpc : s.pc.toNat + 2 ≤ 4096)
    (hdec : decode s.fetchWord = some i) : step s = exec i s.advance := by
  rw [step_running hmode]
  obtain ⟨hout, -⟩ | ⟨-, hnone, -⟩ | ⟨-, j, hsome, hexec⟩ := stepRunning_cases s
  · omega
  · simp [hdec] at hnone
  · rwa [Option.some.inj (hdec.symm.trans hsome)]

/-- Settles O9. The halves are those of `joinBytes`; in the worked example the word is `LD I, 0xBCD`, which keeps the fetch
advance. -/
theorem fetchIsBigEndian : Obligations.FetchIsBigEndian := by
  unfold Obligations.FetchIsBigEndian
  refine ⟨fun s => ⟨extractLsb_joinBytes_high _ _, extractLsb_joinBytes_low _ _⟩, ?_⟩
  intro s hmode hpc hhi hlo
  have hword : s.fetchWord = 0xABCD#16 := by
    have hjoin : s.fetchWord = joinBytes (s.readByte 2) (s.readByte 3) := by rw [State.fetchWord, hpc]; rfl
    rw [hjoin, hhi, hlo]
    decide
  have hdec : decode s.fetchWord = some (.ldI 0xBCD#12) := by rw [hword]; decide
  refine ⟨hword, _, step_eq_exec_of_decode hmode (by simp [hpc]) hdec, ?_⟩
  simp [hpc]

end Sys2Proof.Machine

namespace Sys2Proof

/-! ## Decoding a word from its fields -/

/-- Appended bits are the low digits. -/
theorem toNat_append_eq_add {n m : Nat} (a : BitVec n) (b : BitVec m) :
    (a ++ b).toNat = a.toNat * 2 ^ m + b.toNat := by
  rw [BitVec.toNat_append, ← Nat.shiftLeft_add_eq_or_of_lt b.isLt, Nat.shiftLeft_eq]

/-- A top nibble before an address is the format F-NNN (30 R76). -/
theorem append_eq_encNNN (f : BitVec 4) (nnn : Addr12) : f ++ nnn = encNNN f.toNat nnn := by
  apply BitVec.eq_of_toNat_eq
  simp only [toNat_append_eq_add, toNat_encNNN f.isLt, Nat.reducePow]

/-- A top nibble before a register and a byte is the format F-XKK (30 R76). -/
theorem append_eq_encXKK (f : BitVec 4) (x : Nibble) (kk : Byte) :
    f ++ BitVec.ofFin (w := 4) x ++ kk = encXKK f.toNat x kk := by
  apply BitVec.eq_of_toNat_eq
  simp only [toNat_append_eq_add, toNat_encXKK f.isLt, BitVec.toNat_ofFin]
  omega

/-- A top nibble before three nibbles is the format F-XYN (30 R76). -/
theorem append_eq_encXYN (f : BitVec 4) (x y n : Nibble) :
    f ++ BitVec.ofFin (w := 4) x ++ BitVec.ofFin (w := 4) y ++ BitVec.ofFin (w := 4) n = encXYN f.toNat x y n := by
  apply BitVec.eq_of_toNat_eq
  simp only [toNat_append_eq_add, toNat_encXYN f.isLt, BitVec.toNat_ofFin]
  omega

/-- Settles O7. Each word is the encoding format with that top nibble, whose fields the decoder reads back; in these
families it looks at no other bit. -/
theorem topNibbleAloneSelectsInTenFamilies : Obligations.TopNibbleAloneSelectsInTenFamilies := by
  unfold Obligations.TopNibbleAloneSelectsInTenFamilies
  refine ⟨fun nnn => ?_, fun x kk => ?_, fun x y n => ?_⟩
  · simp only [append_eq_encNNN]
    simp [decode, fields_encNNN]
  · simp only [append_eq_encXKK]
    simp [decode, fields_encXKK]
  · simp only [append_eq_encXYN]
    simp [decode, fields_encXYN]

/-- In family 8 the decoder of an F-XYN word hands its registers to the instruction that N4 selects (30 R83). -/
theorem decode_family8 (x y n : Nibble) : decode (encXYN 0x8 x y n) =
    if n = 0x0 then some (.ldReg x y) else if n = 0x1 then some (.orReg x y) else if n = 0x2 then some (.andReg x y)
    else if n = 0x3 then some (.xorReg x y) else if n = 0x4 then some (.addReg x y) else if n = 0x5 then some (.sub x y)
    else if n = 0x6 then some (.shr x y) else if n = 0x7 then some (.subn x y) else if n = 0xE then some (.shl x y)
    else none := by
  obtain ⟨hfamily, hx, hy, hn⟩ := fields_encXYN (f := 0x8) (by decide) x y n
  simp only [decode, hfamily, decodeFamily8, hx, hy, hn]
  fin_cases n <;> rfl

/-- Settles O5. The word is the format with its top nibble; the selector is the field the family's decoder branches on. -/
theorem subopcodesSelectInFamiliesEightEAndF : Obligations.SubopcodesSelectInFamiliesEightEAndF := by
  unfold Obligations.SubopcodesSelectInFamiliesEightEAndF
  refine ⟨decode_family8, fun x kk => ?_, fun x kk => ?_⟩
  · obtain ⟨hfamily, hx, hkk⟩ := fields_encXKK (f := 0xE) (by decide) x kk
    change decode (encXKK 0xE x kk) = _
    simp only [decode, hfamily, decodeFamilyE, hx, hkk]
  · obtain ⟨hfamily, hx, hkk⟩ := fields_encXKK (f := 0xF) (by decide) x kk
    change decode (encXKK 0xF x kk) = _
    simp only [decode, hfamily, decodeFamilyF, hx, hkk]

end Sys2Proof

namespace Sys2Proof.Machine

/-! ## Skips -/

/-- An instruction that ends in `skipIf` skips exactly where what the flag decides holds (41 R124). -/
theorem skipsWhen_of_exec_eq_skipIf {i : Instr} {s : State} {c : Bool} {cond : Prop}
    (hexec : exec i s = .next (s.skipIf c)) (hcond : c = true ↔ cond) : SkipsWhen i s cond := by
  refine ⟨s.skipIf c, hexec, fun hskip => ?_, fun hstay => ?_, onlyChanges_skipIf s c⟩
  · rw [State.skipIf_pc, if_pos (hcond.mpr hskip)]
  · rw [State.skipIf_pc, if_neg (mt hcond.mp hstay)]

theorem exec_seByte (x : Nibble) (kk : Byte) (s : State) :
    exec (.seByte x kk) s = .next (s.skipIf (s.readV x == kk)) := rfl

theorem exec_sneByte (x : Nibble) (kk : Byte) (s : State) :
    exec (.sneByte x kk) s = .next (s.skipIf (s.readV x != kk)) := rfl

/-- Settles O31. Both end in `skipIf`, whose flag is the comparison of `V[x]` with `kk`. -/
theorem skipsOnByte : Obligations.SkipsOnByte := by
  unfold Obligations.SkipsOnByte
  intro x kk s
  exact ⟨skipsWhen_of_exec_eq_skipIf (exec_seByte x kk s) beq_iff_eq,
    skipsWhen_of_exec_eq_skipIf (exec_sneByte x kk s) bne_iff_ne⟩

end Sys2Proof.Machine

namespace Sys2Proof.Machine

/-! ## Register loads and the flagless ALU -/

/-- An instruction that ends in one register write has written that register alone, VF included (42 R140 to R145). -/
theorem writesReg_of_exec_eq_writeV {i : Instr} {s : State} {x : Nibble} {b : Byte} {value : Byte → Prop}
    (hexec : exec i s = .next (s.writeV x b)) (hvalue : value b) : WritesReg i s x value :=
  ⟨s.writeV x b, hexec, by rwa [readV_writeV_same], regsKeptBut_writeV s x b, onlyChanges_writeV s x b⟩

theorem exec_ldByte (x : Nibble) (kk : Byte) (s : State) : exec (.ldByte x kk) s = .next (s.writeV x kk) := rfl

theorem exec_addByte (x : Nibble) (kk : Byte) (s : State) :
    exec (.addByte x kk) s = .next (s.writeV x (s.readV x + kk)) := rfl

theorem exec_ldReg (x y : Nibble) (s : State) : exec (.ldReg x y) s = .next (s.writeV x (s.readV y)) := rfl

theorem exec_orReg (x y : Nibble) (s : State) :
    exec (.orReg x y) s = .next (s.writeV x (s.readV x ||| s.readV y)) := rfl

theorem exec_andReg (x y : Nibble) (s : State) :
    exec (.andReg x y) s = .next (s.writeV x (s.readV x &&& s.readV y)) := rfl

theorem exec_xorReg (x y : Nibble) (s : State) :
    exec (.xorReg x y) s = .next (s.writeV x (s.readV x ^^^ s.readV y)) := rfl

/-- Settles O24. Both end in one register write; the byte sum is the sum modulo 256. -/
theorem byteLoadAndByteAdd : Obligations.ByteLoadAndByteAdd := by
  unfold Obligations.ByteLoadAndByteAdd
  intro x kk s
  exact ⟨writesReg_of_exec_eq_writeV (exec_ldByte x kk s) rfl,
    writesReg_of_exec_eq_writeV (exec_addByte x kk s) (BitVec.toNat_add (s.readV x) kk)⟩

/-- Settles O25. Each ends in one register write, and each logic operation on bytes acts on every bit. -/
theorem registerMoveAndLogic : Obligations.RegisterMoveAndLogic := by
  unfold Obligations.RegisterMoveAndLogic
  intro x y s
  exact ⟨writesReg_of_exec_eq_writeV (exec_ldReg x y s) rfl,
    writesReg_of_exec_eq_writeV (exec_orReg x y s) fun _ _ => BitVec.getLsbD_or,
    writesReg_of_exec_eq_writeV (exec_andReg x y s) fun _ _ => BitVec.getLsbD_and,
    writesReg_of_exec_eq_writeV (exec_xorReg x y s) fun _ _ => BitVec.getLsbD_xor⟩

end Sys2Proof.Machine

namespace Sys2Proof.Machine

/-! ## The address register -/

/-- A 12-bit immediate keeps its value as an address (43 R170). -/
@[simp] theorem toNat_immAddr (nnn : Addr12) : (immAddr nnn).toNat = nnn.toNat :=
  BitVec.toNat_setWidth_of_le (by decide)

theorem exec_ldI (nnn : Addr12) (s : State) : exec (.ldI nnn) s = .next (s.writeI (immAddr nnn)) := rfl

/-- Settles O39. LD I ends in one write of `I`, and widening the address keeps its value. -/
theorem loadIndex : Obligations.LoadIndex := by
  unfold Obligations.LoadIndex
  intro nnn s
  refine ⟨s.writeI (immAddr nnn), exec_ldI nnn s, ?_, onlyChanges_writeI s (immAddr nnn)⟩
  rw [State.writeI_i, toNat_immAddr]

end Sys2Proof.Machine

namespace Sys2Proof.Machine

/-! ## The display -/

/-- `s` with another display. -/
def State.writeDisp (s : State) (d : Vector Bool 2048) : State := { s with disp := d }

@[simp] theorem State.writeDisp_disp (s : State) (d : Vector Bool 2048) : (s.writeDisp d).disp = d := rfl

/-- The second of two display writes stands. -/
@[simp] theorem State.writeDisp_writeDisp (s : State) (d e : Vector Bool 2048) :
    (s.writeDisp d).writeDisp e = s.writeDisp e := rfl

theorem onlyChanges_writeDisp (s : State) (d : Vector Bool 2048) : OnlyChanges [.disp] s (s.writeDisp d) := by
  intro p hp
  cases p with
  | disp => simp at hp
  | v | stack | key | mem => intro _; rfl
  | i | pc | sp | dt | st | mode | params | rand | keyRand => rfl

/-- Every cell of the display at reset is false (10 R44). -/
theorem getElem_resetDisp (c : Fin 2048) : resetDisp[c] = false := Vector.getElem_replicate c.isLt

/-- CLS gives the display its contents at reset (44 R190). -/
theorem exec_cls (s : State) : exec .cls s = .next (s.writeDisp resetDisp) := rfl

/-- Settles O47. CLS ends in one write of the blank display, so a second CLS writes what already stands there. -/
theorem clsClearsTheDisplay : Obligations.ClsClearsTheDisplay := by
  unfold Obligations.ClsClearsTheDisplay
  intro s
  have hclear (c : Fin 2048) : (s.writeDisp resetDisp).disp[c] = false := by
    rw [State.writeDisp_disp, getElem_resetDisp]
  have hagain : exec .cls (s.writeDisp resetDisp) = .next (s.writeDisp resetDisp) := by
    rw [exec_cls, State.writeDisp_writeDisp]
  exact ⟨s.writeDisp resetDisp, exec_cls s, hclear, onlyChanges_writeDisp s resetDisp,
    s.writeDisp resetDisp, hagain, OnlyChanges.refl [] _⟩

end Sys2Proof.Machine

namespace Sys2Proof

/-! ## Decoding and encoding are inverse -/

/-- In family 0 the two exact words come first (30 R80). -/
theorem decode_family0 (nnn : Addr12) : decode (encNNN 0x0 nnn) =
    if nnn = 0x0E0#12 then some .cls else if nnn = 0x0EE#12 then some .ret else some (.sys nnn) := by
  obtain ⟨hfamily, hnnn⟩ := fields_encNNN (f := 0x0) (by decide) nnn
  have hexact (c : Nat) (hc : c < 4096) : encNNN 0x0 nnn = BitVec.ofNat 16 c ↔ nnn = BitVec.ofNat 12 c := by
    simp [← BitVec.toNat_inj, toNat_encNNN (f := 0x0) (by decide)]
    omega
  simp only [decode, hfamily, decodeFamily0, hnnn, hexact 0x0E0 (by decide), hexact 0x0EE (by decide)]
  split
  · rfl
  · split <;> rfl

/-- Settles O6. A 12-bit number widened to a word is the format F-NNN with top nibble 0. -/
theorem familyZeroIsClsRetOrSys : Obligations.FamilyZeroIsClsRetOrSys := by
  unfold Obligations.FamilyZeroIsClsRetOrSys
  intro nnn
  have hword : nnn.setWidth 16 = encNNN 0x0 nnn := by
    apply BitVec.eq_of_toNat_eq
    rw [BitVec.toNat_setWidth_of_le (by decide), toNat_encNNN (by decide), Nat.zero_mul, Nat.zero_add]
  rw [hword, decode_family0]

/-- In family E the low byte selects (30 R84). -/
theorem decode_familyE (x : Nibble) (kk : Byte) : decode (encXKK 0xE x kk) =
    if kk = 0x9E#8 then some (.skp x) else if kk = 0xA1#8 then some (.sknp x) else none :=
  subopcodesSelectInFamiliesEightEAndF.2.1 x kk

/-- In family F the low byte selects (30 R85). -/
theorem decode_familyF (x : Nibble) (kk : Byte) : decode (encXKK 0xF x kk) =
    if kk = 0x07#8 then some (.ldVxDt x) else if kk = 0x0A#8 then some (.ldVxK x) else if kk = 0x15#8 then some (.ldDtVx x)
    else if kk = 0x18#8 then some (.ldStVx x) else if kk = 0x1E#8 then some (.addIVx x)
    else if kk = 0x29#8 then some (.ldFVx x) else if kk = 0x33#8 then some (.ldBVx x)
    else if kk = 0x55#8 then some (.ldMemVx x) else if kk = 0x65#8 then some (.ldVxMem x) else none :=
  subopcodesSelectInFamiliesEightEAndF.2.2 x kk

/-- Settles O2. By the instruction's format: where the top nibble alone selects, the decoder reads the fields back; in
families 0, 8, E and F the family's lemma evaluates at the instruction's own selector. -/
theorem decodeOfEncodeIsIdentity : Obligations.DecodeOfEncodeIsIdentity := by
  unfold Obligations.DecodeOfEncodeIsIdentity
  intro i hwf
  cases i with
  | cls | ret => rfl
  | sys nnn =>
    obtain ⟨hcls, hret⟩ : nnn ≠ 0x0E0#12 ∧ nnn ≠ 0x0EE#12 := by simpa [Instr.wf, sysAddrOk] using hwf
    rw [encode, decode_family0, if_neg hcls, if_neg hret]
  | jp | call | ldI | jpV0 => simp [encode, decode, fields_encNNN]
  | seByte | sneByte | ldByte | addByte | rnd => simp [encode, decode, fields_encXKK]
  | seReg | sneReg | drw => simp [encode, decode, fields_encXYN]
  | ldReg | orReg | andReg | xorReg | addReg | sub | shr | subn | shl => exact decode_family8 _ _ _
  | skp | sknp => exact decode_familyE _ _
  | ldVxDt | ldVxK | ldDtVx | ldStVx | addIVx | ldFVx | ldBVx | ldMemVx | ldVxMem => exact decode_familyF _ _

/-! ### A word from its own fields -/

/-- A word is its family and its address (30 R76). -/
theorem encNNN_fields (w : Word) : encNNN (family w) (fieldNnn w) = w := by
  have := w.isLt
  apply BitVec.eq_of_toNat_eq
  simp [encNNN, family, fieldNnn]
  omega

/-- A word is its family, its register and its byte (30 R76). -/
theorem encXKK_fields (w : Word) : encXKK (family w) (fieldX w) (fieldKk w) = w := by
  have := w.isLt
  apply BitVec.eq_of_toNat_eq
  simp [encXKK, family, fieldX, fieldKk]
  omega

/-- A word is its family and its three nibbles (30 R76). -/
theorem encXYN_fields (w : Word) : encXYN (family w) (fieldX w) (fieldY w) (fieldN w) = w := by
  have := w.isLt
  apply BitVec.eq_of_toNat_eq
  simp [encXYN, family, fieldX, fieldY, fieldN]
  omega

theorem encode_of_decodeFamily0 {w : Word} (hfamily : family w = 0x0) :
    (decodeFamily0 w).wf = true ∧ encode (decodeFamily0 w) = w := by
  have hword : encNNN 0x0 (fieldNnn w) = w := by rw [← hfamily, encNNN_fields]
  unfold decodeFamily0
  split
  · next hcls => exact ⟨rfl, hcls.symm⟩
  · split
    · next hret => exact ⟨rfl, hret.symm⟩
    · next hcls hret =>
      have hnecls : fieldNnn w ≠ 0x0E0#12 := fun h => hcls (by rw [← hword, h]; rfl)
      have hneret : fieldNnn w ≠ 0x0EE#12 := fun h => hret (by rw [← hword, h]; rfl)
      exact ⟨by simp [Instr.wf, sysAddrOk, hnecls, hneret], hword⟩

theorem encode_of_decodeFamily8 {w : Word} {i : Instr} (hfamily : family w = 0x8) (h : decodeFamily8 w = some i) :
    i.wf = true ∧ encode i = w := by
  have hword (n : Nibble) (hn : (fieldN w).val = n.val) : encXYN 0x8 (fieldX w) (fieldY w) n = w := by
    rw [← Fin.ext hn, ← hfamily, encXYN_fields]
  unfold decodeFamily8 at h
  split at h <;> cases h <;> exact ⟨rfl, hword _ (by assumption)⟩

theorem encode_of_decodeFamilyE {w : Word} {i : Instr} (hfamily : family w = 0xE) (h : decodeFamilyE w = some i) :
    i.wf = true ∧ encode i = w := by
  have hword (kk : Byte) (hkk : fieldKk w = kk) : encXKK 0xE (fieldX w) kk = w := by
    rw [← hkk, ← hfamily, encXKK_fields]
  unfold decodeFamilyE at h
  split_ifs at h <;> cases h <;> exact ⟨rfl, hword _ (by assumption)⟩

theorem encode_of_decodeFamilyF {w : Word} {i : Instr} (hfamily : family w = 0xF) (h : decodeFamilyF w = some i) :
    i.wf = true ∧ encode i = w := by
  have hword (kk : Byte) (hkk : fieldKk w = kk) : encXKK 0xF (fieldX w) kk = w := by
    rw [← hkk, ← hfamily, encXKK_fields]
  unfold decodeFamilyF at h
  split_ifs at h <;> cases h <;> exact ⟨rfl, hword _ (by assumption)⟩

/-- Settles O3. By the family: a word is its own fields laid out again, so an instruction made of those fields encodes to
it. -/
theorem encodeOfDecodeIsIdentity : Obligations.EncodeOfDecodeIsIdentity := by
  unfold Obligations.EncodeOfDecodeIsIdentity
  intro w i h
  have hnnn := encNNN_fields w
  have hxkk := encXKK_fields w
  have hxyn := encXYN_fields w
  unfold decode at h
  split at h
  case h_1 hfamily => cases h; exact encode_of_decodeFamily0 hfamily
  case h_9 hfamily => exact encode_of_decodeFamily8 hfamily h
  case h_15 hfamily => exact encode_of_decodeFamilyE hfamily h
  case h_16 hfamily => exact encode_of_decodeFamilyF hfamily h
  case h_6 hfamily | h_10 hfamily =>
    split at h
    · next hn =>
      cases h
      rw [hfamily, show fieldN w = 0 from Fin.ext hn] at hxyn
      exact ⟨rfl, hxyn⟩
    · cases h
  case h_2 hfamily | h_3 hfamily | h_11 hfamily | h_12 hfamily =>
    cases h; rw [hfamily] at hnnn; exact ⟨rfl, hnnn⟩
  case h_4 hfamily | h_5 hfamily | h_7 hfamily | h_8 hfamily | h_13 hfamily =>
    cases h; rw [hfamily] at hxkk; exact ⟨rfl, hxkk⟩
  case h_14 hfamily => cases h; rw [hfamily] at hxyn; exact ⟨rfl, hxyn⟩
  case h_17 => cases h

/-! ### The unknown words -/

theorem decodeFamily8_eq_none (w : Word) :
    decodeFamily8 w = none ↔ w.toNat % 16 ∈ [0x8, 0x9, 0xA, 0xB, 0xC, 0xD, 0xF] := by
  have hselect (n : Nat) (hn : n < 16) : n ∈ [0x8, 0x9, 0xA, 0xB, 0xC, 0xD, 0xF] ↔
      n ∉ [0x0, 0x1, 0x2, 0x3, 0x4, 0x5, 0x6, 0x7, 0xE] := by
    interval_cases n <;> decide
  change _ ↔ (fieldN w).val ∈ _
  rw [hselect _ (fieldN w).isLt]
  unfold decodeFamily8
  split <;> simp_all

theorem fieldKk_eq_iff (w : Word) (kk : Byte) : fieldKk w = kk ↔ w.toNat % 256 = kk.toNat := by
  rw [← BitVec.toNat_inj]; rfl

theorem decodeFamilyE_eq_none (w : Word) : decodeFamilyE w = none ↔ w.toNat % 256 ∉ [0x9E, 0xA1] := by
  simp [decodeFamilyE, ite_eq_iff, fieldKk_eq_iff]

theorem decodeFamilyF_eq_none (w : Word) :
    decodeFamilyF w = none ↔ w.toNat % 256 ∉ [0x07, 0x0A, 0x15, 0x18, 0x1E, 0x29, 0x33, 0x55, 0x65] := by
  simp [decodeFamilyF, ite_eq_iff, fieldKk_eq_iff]

/-- Families 5 and 9 need N4 = 0 (30 R82). -/
theorem fieldN_eq_zero (w : Word) : fieldN w = 0 ↔ w.toNat % 16 = 0 := Fin.ext_iff

/-- Settles O4. By the family, each of which leaves one of the five classes or none of them. -/
theorem unknownWordsAreExactlyTheListedClasses : Obligations.UnknownWordsAreExactlyTheListedClasses := by
  unfold Obligations.UnknownWordsAreExactlyTheListedClasses
  intro w
  change _ ↔ (family w = 5 ∧ _) ∨ (family w = 9 ∧ _) ∨ (family w = 8 ∧ _) ∨ (family w = 14 ∧ _) ∨ (family w = 15 ∧ _)
  have hlt : family w < 16 := Nat.div_lt_of_lt_mul w.isLt
  unfold decode
  generalize hfamily : family w = f at hlt ⊢
  interval_cases f <;>
    simp [decodeFamily8_eq_none, decodeFamilyE_eq_none, decodeFamilyF_eq_none, fieldN_eq_zero]

/-- Settles O1. Eleven runs of the decoder. -/
theorem writtenWordsDecode : Obligations.WrittenWordsDecode := by
  unfold Obligations.WrittenWordsDecode
  decide

end Sys2Proof

namespace Sys2Proof

/-- The parts of the state that an instruction may change where it raises no error (10 R22 to R38, 20 R52). -/
def Instr.parts : Instr → List Machine.Part
  | .sys _ => []
  | .cls => [.disp]
  | .ret => [.pc, .sp]
  | .call _ => [.pc, .sp, .stack]
  | .jp _ | .jpV0 _ | .seByte _ _ | .sneByte _ _ | .seReg _ _ | .sneReg _ _ | .skp _ | .sknp _ => [.pc]
  | .ldByte _ _ | .addByte _ _ | .ldReg _ _ | .orReg _ _ | .andReg _ _ | .xorReg _ _ | .addReg _ _ | .sub _ _ | .shr _ _
  | .subn _ _ | .shl _ _ | .ldVxDt _ | .ldVxMem _ => [.v]
  | .ldI _ | .addIVx _ | .ldFVx _ => [.i]
  | .rnd _ _ => [.v, .rand]
  | .drw _ _ _ => [.v, .disp]
  | .ldVxK _ => [.mode]
  | .ldDtVx _ => [.dt]
  | .ldStVx _ => [.st]
  | .ldBVx _ | .ldMemVx _ => [.mem]

end Sys2Proof

namespace Sys2Proof.Machine

/-! ## The frame of an instruction -/

theorem onlyChanges_writeRand (s : State) (rand : RandSource) : OnlyChanges [.rand] s { s with rand := rand } := by
  intro p hp; cases p <;> simp_all [Part.Same, State.readByte, State.readV]

theorem onlyChanges_writeMode (s : State) (mode : Mode) : OnlyChanges [.mode] s { s with mode := mode } := by
  intro p hp; cases p <;> simp_all [Part.Same, State.readByte, State.readV]

theorem onlyChanges_writeDt (s : State) (b : Byte) : OnlyChanges [.dt] s { s with dt := b } := by
  intro p hp; cases p <;> simp_all [Part.Same, State.readByte, State.readV]

theorem onlyChanges_writeSt (s : State) (b : Byte) : OnlyChanges [.st] s { s with st := b } := by
  intro p hp; cases p <;> simp_all [Part.Same, State.readByte, State.readV]

/-- A change of some parts and then of others is a change of both. -/
theorem OnlyChanges.append {parts more : List Part} {s t u : State} (h₁ : OnlyChanges parts s t)
    (h₂ : OnlyChanges more t u) : OnlyChanges (parts ++ more) s u :=
  (h₁.mono fun _ => List.mem_append_left more).trans (h₂.mono fun _ => List.mem_append_right parts)

theorem ExecEffect.onlyChanges {i : Instr} {s t : State} (h : ExecEffect i s t) : OnlyChanges i.parts s t := by
  cases i with
  | sys => obtain rfl := h; exact OnlyChanges.refl _ _
  | cls => obtain rfl := h; exact onlyChanges_writeDisp s _
  | ret =>
    obtain ⟨-, rfl⟩ := h
    exact ((onlyChanges_drop s).append (onlyChanges_writePc _ _)).mono (by simp [Instr.parts])
  | call =>
    obtain ⟨-, -, rfl⟩ := h
    exact ((onlyChanges_push s s.pc).append (onlyChanges_writePc _ _)).mono (by simp [Instr.parts])
  | jp | jpV0 => obtain ⟨-, rfl⟩ := h; exact onlyChanges_writePc s _
  | seByte | sneByte | seReg | sneReg | skp | sknp => obtain ⟨c, rfl⟩ := h; exact onlyChanges_skipIf s c
  | ldByte x | addByte x | ldReg x | orReg x | andReg x | xorReg x | ldVxDt x =>
    obtain ⟨b, rfl⟩ := h; exact onlyChanges_writeV s x b
  | addReg x | sub x | shr x | subn x | shl x => obtain ⟨b, c, rfl⟩ := h; exact onlyChanges_writeVAndFlag s x b c
  | ldI | addIVx | ldFVx => obtain ⟨a, rfl⟩ := h; exact onlyChanges_writeI s a
  | rnd x => obtain rfl := h; exact (onlyChanges_writeV s x _).append (onlyChanges_writeRand _ _)
  | drw =>
    obtain ⟨d, b, rfl⟩ := h
    exact ((onlyChanges_writeDisp s d).append (onlyChanges_writeV _ vf b)).mono (by simp [Instr.parts])
  | ldVxK => obtain rfl := h; exact onlyChanges_writeMode s _
  | ldDtVx => obtain rfl := h; exact onlyChanges_writeDt s _
  | ldStVx => obtain rfl := h; exact onlyChanges_writeSt s _
  | ldBVx | ldMemVx => obtain ⟨-, rfl⟩ := h; exact onlyChanges_storeBytes s _ _
  | ldVxMem => obtain ⟨bs, -, rfl⟩ := h; exact onlyChanges_storeRegs s 0 bs

/-- Any instruction changes its own parts, and the mode where it raises an error. -/
theorem exec_onlyChanges {i : Instr} {s t : State} (h : exec i s = .next t) : OnlyChanges (.mode :: i.parts) s t := by
  obtain ⟨e, rfl, -⟩ | heff := exec_cases h
  · exact (onlyChanges_raise s e).mono (by simp)
  · exact heff.onlyChanges.mono fun p => List.mem_cons_of_mem _

/-! ## What an instruction does to what the invariants speak of -/

/-- No instruction changes the parameters. -/
theorem exec_params {i : Instr} {s t : State} (h : exec i s = .next t) : t.params = s.params :=
  exec_onlyChanges h .params (by cases i <;> simp [Instr.parts])

/-- A halted core after an instruction was halted before it, or holds a truthful error. -/
theorem exec_halted {i : Instr} {s t : State} {e : FatalError} (h : exec i s = .next t) (hmode : t.mode = .halted e) :
    s.mode = .halted e ∨ e.Truthful s.params := by
  obtain ⟨e', rfl, htrue⟩ | heff := exec_cases h
  · obtain rfl : e' = e := Mode.halted.inj hmode
    exact .inr htrue
  · refine .inl ?_
    cases i with
    | ldVxK => obtain rfl := heff; cases hmode
    | _ => exact (heff.onlyChanges .mode (by simp [Instr.parts])).symm.trans hmode

/-- Every instruction keeps the canonical form of memory. -/
theorem exec_wf {i : Instr} {s t : State} (h : exec i s = .next t) (hwf : Memory.wf s.params s.mem = true) :
    Memory.wf t.params t.mem = true := by
  obtain ⟨e, rfl, -⟩ | heff := exec_cases h
  · exact hwf
  · cases i with
    | ldBVx x => obtain ⟨hfit, rfl⟩ := heff; exact wf_storeBytes s _ _ hfit hwf
    | ldMemVx x => obtain ⟨hfit, rfl⟩ := heff; exact wf_storeBytes s _ _ (by rwa [length_regsUpTo]) hwf
    | ldVxMem => obtain ⟨bs, -, rfl⟩ := heff; simpa using hwf
    | seByte | sneByte | seReg | sneReg | skp | sknp => obtain ⟨c, rfl⟩ := heff; simpa using hwf
    | ldByte | addByte | ldReg | orReg | andReg | xorReg | ldVxDt | ldI | addIVx | ldFVx => obtain ⟨b, rfl⟩ := heff; exact hwf
    | addReg | sub | shr | subn | shl | drw => obtain ⟨b, c, rfl⟩ := heff; exact hwf
    | ret | jp | jpV0 => obtain ⟨-, rfl⟩ := heff; exact hwf
    | call => obtain ⟨-, -, rfl⟩ := heff; exact hwf
    | sys | cls | rnd | ldVxK | ldDtVx | ldStVx => obtain rfl := heff; exact hwf

/-- JP V0's target is the sum modulo 4096 (41 R129). -/
theorem toNat_tableTarget (nnn : Addr12) (v0 : Byte) :
    (tableTarget nnn v0).toNat = (nnn.toNat + v0.toNat) % 4096 := by
  have := nnn.isLt
  have := v0.isLt
  have hv0 : (regAddr v0).toNat = v0.toNat := BitVec.toNat_setWidth_of_le (by decide)
  rw [tableTarget, BitVec.toNat_and, BitVec.toNat_add, toNat_immAddr, hv0, Nat.mod_eq_of_lt (by omega)]
  exact Nat.and_two_pow_sub_one_eq_mod _ 12

/-- Where `pc` stands after an instruction: as the fetch left it, past a skipped word, at the most recent return address, or
at a 12-bit target that ODD_PC lets through. -/
theorem exec_pc_cases {i : Instr} {s t : State} (h : exec i s = .next t) :
    t.pc = s.pc ∨ t.pc = s.pc + 2#16 ∨ t.pc = s.stack[s.sp] ∨ (t.pc.toNat < 4096 ∧ s.rejectsTarget t.pc = false) := by
  obtain ⟨e, rfl, -⟩ | heff := exec_cases h
  · exact .inl rfl
  · cases i with
    | ret => obtain ⟨-, rfl⟩ := heff; exact .inr (.inr (.inl rfl))
    | jp nnn => obtain ⟨hok, rfl⟩ := heff; exact .inr (.inr (.inr ⟨by simp [nnn.isLt], hok⟩))
    | call nnn => obtain ⟨hok, -, rfl⟩ := heff; exact .inr (.inr (.inr ⟨by simp [nnn.isLt], hok⟩))
    | jpV0 nnn => obtain ⟨hok, rfl⟩ := heff; exact .inr (.inr (.inr ⟨by simp [toNat_tableTarget, Nat.mod_lt], hok⟩))
    | seByte | sneByte | seReg | sneReg | skp | sknp =>
      obtain ⟨c, rfl⟩ := heff
      cases c
      · exact .inl rfl
      · exact .inr (.inl rfl)
    | _ => exact .inl (heff.onlyChanges .pc (by simp [Instr.parts]))

/-- The stack after an instruction: as before, or with `pc` in one slot that is not slot 0 (10 R31, R33). -/
theorem exec_stack_cases {i : Instr} {s t : State} (h : exec i s = .next t) :
    (∀ j : Nibble, t.stack[j] = s.stack[j]) ∨
    ∃ k : Nibble, k ≠ 0 ∧ ∀ j : Nibble, t.stack[j] = if j = k then s.pc else s.stack[j] := by
  obtain ⟨e, rfl, -⟩ | heff := exec_cases h
  · exact .inl fun _ => rfl
  · cases i with
    | call =>
      obtain ⟨-, hsp, rfl⟩ := heff
      have hsucc : ∀ k : Nibble, k ≠ 15 → k + 1 ≠ 0 := by decide
      exact .inr ⟨s.sp + 1, hsucc _ hsp, getElem_push_stack s s.pc⟩
    | _ => exact .inl (heff.onlyChanges .stack (by simp [Instr.parts]))

/-! ## What a step can do -/

/-- The state after a running step: the fetch raised, the word was unknown, or its instruction was executed. -/
theorem step_running_cases {s t : State} (hmode : s.mode = .running) (h : step s = .next t) :
    (4096 < s.pc.toNat + 2 ∧ t = s.raise (.addressOutOfRange (max s.pc.toNat 4096) s.pc)) ∨
    (s.pc.toNat + 2 ≤ 4096 ∧ decode s.fetchWord = none ∧ t = s.advance.raise (.unknownOpcode s.fetchWord s.pc)) ∨
    (s.pc.toNat + 2 ≤ 4096 ∧ ∃ i, decode s.fetchWord = some i ∧ exec i s.advance = .next t) := by
  rw [step_running hmode] at h
  obtain ⟨hpc, hstep⟩ | ⟨hpc, hdec, hstep⟩ | ⟨hpc, i, hdec, hstep⟩ := stepRunning_cases s <;> rw [hstep] at h
  · exact .inl ⟨hpc, (Host.Outcome.next.inj h).symm⟩
  · exact .inr (.inl ⟨hpc, hdec, (Host.Outcome.next.inj h).symm⟩)
  · exact .inr (.inr ⟨hpc, i, hdec, h⟩)

theorem onlyChanges_waitStep (x : Nibble) (snap : Vector Bool 16) (s : State) :
    OnlyChanges [.v, .mode, .keyRand] s (waitStep x snap s) := by
  obtain ⟨-, h⟩ | ⟨k, -, h⟩ := waitStep_cases x snap s <;> rw [h]
  · exact (onlyChanges_writeMode s _).mono (by simp)
  · exact onlyChanges_resume s x k

/-- A waiting step does not halt the core. -/
theorem waitStep_mode_ne_halted (x : Nibble) (snap : Vector Bool 16) (s : State) (e : FatalError) :
    (waitStep x snap s).mode ≠ .halted e := by
  obtain ⟨-, h⟩ | ⟨k, -, h⟩ := waitStep_cases x snap s
  · rw [h]; nofun
  · rw [h]; nofun

theorem waitStep_mem (x : Nibble) (snap : Vector Bool 16) (s : State) : (waitStep x snap s).mem = s.mem := by
  obtain ⟨-, h⟩ | ⟨k, -, h⟩ := waitStep_cases x snap s
  · rw [h]
  · rw [h, State.resume_mem]

theorem waitStep_params (x : Nibble) (snap : Vector Bool 16) (s : State) : (waitStep x snap s).params = s.params :=
  onlyChanges_waitStep x snap s .params (by simp)

/-! ## The invariants hold at reset -/

/-- The reset state has the invariant, under any parameters and with any draw sources. -/
theorem resetWith_inv (p : Params) : (State.resetWith p).Inv where
  memWf := rfl
  pcBound := by show resetPc.toNat ≤ 0x1002; decide
  stackBound := by show ∀ j : Nibble, resetStack[j].toNat ≤ 0x1000; decide
  slotZero := by show resetStack[(0 : Nibble)] = 0#16; decide
  latched := nofun

theorem resetWith_evenPc (p : Params) : (State.resetWith p).EvenPc := by
  intro _
  refine ⟨?_, ?_⟩
  · show resetPc.toNat % 2 = 0; decide
  · show ∀ j : Nibble, resetStack[j].toNat % 2 = 0; decide

/-- Settles O56. -/
theorem resetMeetsTheInvariants : Obligations.ResetMeetsTheInvariants :=
  ⟨resetWith_inv _, resetWith_evenPc _, fun p => ⟨resetWith_inv p, resetWith_evenPc p⟩⟩

/-! ## Every step keeps the invariant -/

theorem State.Inv.raise {s : State} (h : s.Inv) {e : FatalError} (he : e.Truthful s.params) : (s.raise e).Inv where
  memWf := h.memWf
  pcBound := h.pcBound
  stackBound := h.stackBound
  slotZero := h.slotZero
  latched e' he' := by
    obtain rfl : e = e' := Mode.halted.inj he'
    exact he

/-- An update that leaves the parameters, `pc` and the stack alone, memory canonical and no new error keeps the invariant. -/
theorem State.Inv.of_onlyChanges {parts : List Part} {s t : State} (h : s.Inv) (hframe : OnlyChanges parts s t)
    (hparts : .params ∉ parts ∧ .pc ∉ parts ∧ .stack ∉ parts) (hmem : Memory.wf t.params t.mem = true)
    (hmode : ∀ e, t.mode = .halted e → s.mode = .halted e) : t.Inv := by
  obtain ⟨hparams, hpc, hstack⟩ := hparts
  have hslot : ∀ j : Nibble, t.stack[j] = s.stack[j] := hframe .stack hstack
  exact
    { memWf := hmem
      pcBound := (congrArg BitVec.toNat (hframe .pc hpc)).trans_le h.pcBound
      stackBound := fun j => by rw [hslot]; exact h.stackBound j
      slotZero := by rw [hslot]; exact h.slotZero
      latched := fun e he => by
        rw [show t.params = s.params from hframe .params hparams]
        exact h.latched e (hmode e he) }

/-- The fetch advance of a fetch inside memory does not wrap. -/
theorem toNat_advance_pc {s : State} (hpc : s.pc.toNat + 2 ≤ 4096) : s.advance.pc.toNat = s.pc.toNat + 2 := by
  rw [State.advance_pc, BitVec.toNat_add_of_lt (by simp; omega)]
  rfl

theorem State.Inv.advance {s : State} (h : s.Inv) (hpc : s.pc.toNat + 2 ≤ 4096) : s.advance.Inv where
  memWf := h.memWf
  pcBound := by rw [toNat_advance_pc hpc]; omega
  stackBound := h.stackBound
  slotZero := h.slotZero
  latched := h.latched

/-- An instruction keeps the invariant where its fetch was inside memory, so that `pc` is at most 0x1000. -/
theorem exec_keeps_inv {i : Instr} {s t : State} (h : exec i s = .next t) (hinv : s.Inv) (hpc : s.pc.toNat ≤ 0x1000) :
    t.Inv where
  memWf := exec_wf h hinv.memWf
  pcBound := by
    have htop := hinv.stackBound s.sp
    obtain hsame | hskip | hret | ⟨htarget, -⟩ := exec_pc_cases h
    · rw [hsame]; omega
    · rw [hskip, BitVec.toNat_add_of_lt (by simp; omega)]
      exact Nat.add_le_add_right hpc 2
    · rw [hret]; omega
    · omega
  stackBound j := by
    obtain hsame | ⟨k, -, hpush⟩ := exec_stack_cases h
    · rw [hsame]; exact hinv.stackBound j
    · rw [hpush]
      split
      · exact hpc
      · exact hinv.stackBound j
  slotZero := by
    obtain hsame | ⟨k, hk, hpush⟩ := exec_stack_cases h
    · rw [hsame]; exact hinv.slotZero
    · rw [hpush, if_neg hk.symm]; exact hinv.slotZero
  latched e he := by
    rw [exec_params h]
    exact (exec_halted h he).elim (hinv.latched e) id

/-- Settles O57. By the mode; a running step raises an error that is truthful or runs an instruction behind a fetch inside
memory. -/
theorem everyStepKeepsTheInvariant : Obligations.EveryStepKeepsTheInvariant := by
  unfold Obligations.EveryStepKeepsTheInvariant
  intro s t hinv h
  cases hmode : s.mode with
  | running =>
    obtain ⟨hout, rfl⟩ | ⟨hpc, hdec, rfl⟩ | ⟨hpc, i, -, hexec⟩ := step_running_cases hmode h
    · have := hinv.pcBound
      exact hinv.raise ⟨by omega, by omega⟩
    · exact (hinv.advance hpc).raise hdec
    · exact exec_keeps_inv hexec (hinv.advance hpc) (by rw [toNat_advance_pc hpc]; omega)
  | waitingForKey x snap =>
    rw [step_waiting hmode] at h
    obtain rfl := Host.Outcome.next.inj h
    refine hinv.of_onlyChanges (onlyChanges_waitStep x snap s) (by simp) ?_ fun e he =>
      absurd he (waitStep_mode_ne_halted x snap s e)
    rw [waitStep_mem, waitStep_params]
    exact hinv.memWf
  | halted e =>
    rw [step_halted hmode] at h
    obtain rfl := Host.Outcome.next.inj h
    exact hinv

/-! ## Every step keeps `pc` even under ODD_PC = Fault -/

theorem toNat_add_two_mod_two (a : Word) : (a + 2#16).toNat % 2 = a.toNat % 2 := by
  rw [BitVec.toNat_add, BitVec.toNat_ofNat]
  omega

theorem State.EvenPc.advance {s : State} (h : s.EvenPc) : s.advance.EvenPc := fun hfault =>
  ⟨(toNat_add_two_mod_two s.pc).trans (h hfault).1, (h hfault).2⟩

/-- A target that ODD_PC = Fault lets through is even (10 R26). -/
theorem even_of_rejectsTarget_eq_false {s : State} {a : Word} (hfault : s.params.oddPc = .fault)
    (h : s.rejectsTarget a = false) : a.toNat % 2 = 0 := by
  have hnot : ¬ (s.params.oddPc = .fault ∧ a.toNat % 2 = 1) := by simp [← rejectsTarget_iff, h]
  have := not_and.mp hnot hfault
  omega

theorem exec_keeps_evenPc {i : Instr} {s t : State} (h : exec i s = .next t) (heven : s.EvenPc) : t.EvenPc := by
  intro hfault
  rw [exec_params h] at hfault
  obtain ⟨hpc, hstack⟩ := heven hfault
  refine ⟨?_, fun j => ?_⟩
  · obtain hsame | hskip | hret | ⟨-, htarget⟩ := exec_pc_cases h
    · rw [hsame]; exact hpc
    · rw [hskip, toNat_add_two_mod_two]; exact hpc
    · rw [hret]; exact hstack s.sp
    · exact even_of_rejectsTarget_eq_false hfault htarget
  · obtain hsame | ⟨k, -, hpush⟩ := exec_stack_cases h
    · rw [hsame]; exact hstack j
    · rw [hpush]
      split
      · exact hpc
      · exact hstack j

/-- Evenness speaks of the parameters, `pc` and the stack alone. -/
theorem State.EvenPc.of_onlyChanges {parts : List Part} {s t : State} (h : s.EvenPc) (hframe : OnlyChanges parts s t)
    (hparts : .params ∉ parts ∧ .pc ∉ parts ∧ .stack ∉ parts) : t.EvenPc := by
  intro hfault
  obtain ⟨hparams, hpc, hstack⟩ := hparts
  have hsame : ∀ j : Nibble, t.stack[j] = s.stack[j] := hframe .stack hstack
  obtain ⟨heven, hslots⟩ := h ((congrArg Params.oddPc (hframe .params hparams)).symm.trans hfault)
  exact ⟨(congrArg (·.toNat % 2) (hframe .pc hpc)).trans heven, fun j => by rw [hsame]; exact hslots j⟩

/-- Settles O58. By the mode; an error keeps `pc` as it is or as the fetch advanced it, and an instruction keeps evenness. -/
theorem everyStepKeepsPcEvenUnderOddPcFault : Obligations.EveryStepKeepsPcEvenUnderOddPcFault := by
  unfold Obligations.EveryStepKeepsPcEvenUnderOddPcFault
  intro s t heven h
  cases hmode : s.mode with
  | running =>
    obtain ⟨-, rfl⟩ | ⟨-, -, rfl⟩ | ⟨-, i, -, hexec⟩ := step_running_cases hmode h
    · exact heven.of_onlyChanges (onlyChanges_raise s _) (by simp)
    · exact heven.advance.of_onlyChanges (onlyChanges_raise _ _) (by simp)
    · exact exec_keeps_evenPc hexec heven.advance
  | waitingForKey x snap =>
    rw [step_waiting hmode] at h
    obtain rfl := Host.Outcome.next.inj h
    exact heven.of_onlyChanges (onlyChanges_waitStep x snap s) (by simp)
  | halted e =>
    rw [step_halted hmode] at h
    obtain rfl := Host.Outcome.next.inj h
    exact heven

/-! ## The host's transactions -/

/-- `s` with other draw sources. -/
def State.withSources (rand : RandSource) (keyRand : KeySource) (s : State) : State :=
  { s with rand := rand, keyRand := keyRand }

theorem onlyChanges_withSources (rand : RandSource) (keyRand : KeySource) (s : State) :
    OnlyChanges [.rand, .keyRand] s (s.withSources rand keyRand) := by
  intro p hp; cases p <;> simp_all [Part.Same, State.readByte, State.readV, State.withSources]

/-- `s` with the draws of a step transaction scripted. -/
def State.withDraws (r : Byte) (kc : Nat) (s : State) : State :=
  s.withSources { s.rand with script := [r] } { s.keyRand with script := [kc] }

/-- The step transaction is the step with its draws scripted, and with the state's own sources put back. -/
theorem stepWith_eq_mapNext (r : Byte) (kc : Nat) (s : State) :
    stepWith r kc s = mapNext (State.withSources s.rand s.keyRand) (step (s.withDraws r kc)) := by
  rfl

/-- What `mapNext` answers comes from an answer. -/
theorem mapNext_eq_next {f : State → State} {r : Result} {t : State} (h : mapNext f r = .next t) :
    ∃ u, r = .next u ∧ t = f u := by
  cases r with
  | next u => exact ⟨u, rfl, (Host.Outcome.next.inj h).symm⟩
  | fault | refused => cases h

/-- All that a tick can do (60 R230). -/
theorem tickTx_cases (s : State) :
    (∃ e, s.mode = .halted e ∧ tickTx s = s) ∨
    ((∀ e, s.mode ≠ .halted e) ∧ tickTx s = { s with dt := countDown s.dt, st := countDown s.st }) := by
  cases hmode : s.mode with
  | halted e => exact .inl ⟨e, rfl, by simp [tickTx, hmode]⟩
  | running | waitingForKey => exact .inr ⟨nofun, by simp [tickTx, hmode]⟩

theorem onlyChanges_tickTx (s : State) : OnlyChanges [.dt, .st] s (tickTx s) := by
  obtain ⟨e, -, h⟩ | ⟨-, h⟩ := tickTx_cases s <;> rw [h]
  · exact OnlyChanges.refl _ s
  · exact (onlyChanges_writeDt s (countDown s.dt)).append (onlyChanges_writeSt { s with dt := countDown s.dt } _)

theorem tickTx_mem (s : State) : (tickTx s).mem = s.mem := by
  obtain ⟨e, -, h⟩ | ⟨-, h⟩ := tickTx_cases s <;> rw [h]

theorem onlyChanges_keyWriteTx (k : Nibble) (p : Bool) (s : State) : OnlyChanges [.key] s (keyWriteTx k p s) := by
  intro q hq; cases q <;> simp_all [Part.Same, State.readByte, State.readV, keyWriteTx]

/-- All that a transaction can do to the session. -/
theorem transact_cases {tx : Transaction} {u u' : Session} {r : Response} (h : transact tx u = .next (u', r)) :
    (tx = .reset ∧ u' = ⟨resetTx u.state, false⟩) ∨
    (∃ bytes, tx = .load bytes ∧ u.stepped = false ∧ u' = ⟨loadTx bytes u.state, false⟩) ∨
    (∃ b kc t, tx = .step b kc ∧ stepWith b kc u.state = .next t ∧ u' = ⟨t, true⟩) ∨
    (tx = .tick ∧ u' = ⟨tickTx u.state, u.stepped⟩) ∨
    (∃ k p, tx = .keyWrite k p ∧ u' = ⟨keyWriteTx k p u.state, u.stepped⟩) ∨
    u' = u := by
  cases tx with
  | reset => cases h; simp
  | load bytes =>
    cases hstepped : u.stepped <;> simp only [transact, hstepped] at h
    · cases h; simp
    · cases h
  | step b kc =>
    simp only [transact] at h
    split at h
    · next t hstep => cases h; simp [hstep]
    · cases h
    · cases h
  | tick => cases h; simp
  | keyWrite k p => cases h; exact .inr (.inr (.inr (.inr (.inl ⟨k, p, rfl, rfl⟩))))
  | display | sound | status => cases h; simp

/-- What each transaction of a schedule keeps, the schedule keeps. -/
theorem transactAll_keeps {P : Session → Prop} {txs : List Transaction} {u u' : Session}
    (hkeep : ∀ tx ∈ txs, ∀ v v' r, P v → transact tx v = .next (v', r) → P v')
    (h : transactAll txs u = .next u') (hu : P u) : P u' := by
  induction txs generalizing u with
  | nil => cases h; exact hu
  | cons tx rest ih =>
    rw [transactAll] at h
    split at h
    · next v r hv =>
      exact ih (fun tx' htx' => hkeep tx' (List.mem_cons_of_mem _ htx')) h (hkeep tx List.mem_cons_self u v r hu hv)
    · cases h
    · cases h

/-! ## Every schedule keeps the invariants -/

theorem withSources_inv {s : State} (rand : RandSource) (keyRand : KeySource) (h : s.Inv) :
    (s.withSources rand keyRand).Inv :=
  h.of_onlyChanges (onlyChanges_withSources rand keyRand s) (by simp) h.memWf fun _ => id

theorem withSources_evenPc {s : State} (rand : RandSource) (keyRand : KeySource) (h : s.EvenPc) :
    (s.withSources rand keyRand).EvenPc :=
  h.of_onlyChanges (onlyChanges_withSources rand keyRand s) (by simp)

/-- Both invariants of a session's core. -/
def Session.Good (u : Session) : Prop := u.state.Inv ∧ u.state.EvenPc

theorem transact_keeps_good {tx : Transaction} {u u' : Session} {r : Response} (hu : u.Good)
    (h : transact tx u = .next (u', r)) : u'.Good := by
  obtain ⟨hinv, heven⟩ := hu
  obtain ⟨-, rfl⟩ | ⟨bytes, -, -, rfl⟩ | ⟨b, kc, t, -, hstep, rfl⟩ | ⟨-, rfl⟩ | ⟨k, p, -, rfl⟩ | rfl := transact_cases h
  · exact ⟨withSources_inv _ _ (resetWith_inv _), withSources_evenPc _ _ (resetWith_evenPc _)⟩
  · have hframe := onlyChanges_loadTx bytes u.state
    have hmode : (loadTx bytes u.state).mode = u.state.mode := hframe .mode (by simp)
    exact ⟨hinv.of_onlyChanges hframe (by simp) (wf_loadTx bytes _ hinv.memWf) fun e he => hmode.symm.trans he,
      heven.of_onlyChanges hframe (by simp)⟩
  · rw [stepWith_eq_mapNext] at hstep
    obtain ⟨v, hv, rfl⟩ := mapNext_eq_next hstep
    exact ⟨withSources_inv _ _ (everyStepKeepsTheInvariant _ v (withSources_inv _ _ hinv) hv),
      withSources_evenPc _ _ (everyStepKeepsPcEvenUnderOddPcFault _ v (withSources_evenPc _ _ heven) hv)⟩
  · have hframe := onlyChanges_tickTx u.state
    have hmode : (tickTx u.state).mode = u.state.mode := hframe .mode (by simp)
    have hparams : (tickTx u.state).params = u.state.params := hframe .params (by simp)
    refine ⟨hinv.of_onlyChanges hframe (by simp) ?_ fun e he => hmode.symm.trans he, heven.of_onlyChanges hframe (by simp)⟩
    rw [tickTx_mem, hparams]
    exact hinv.memWf
  · have hframe := onlyChanges_keyWriteTx k p u.state
    exact ⟨hinv.of_onlyChanges hframe (by simp) hinv.memWf fun _ => id, heven.of_onlyChanges hframe (by simp)⟩
  · exact ⟨hinv, heven⟩

/-- Settles O59. By the schedule: a reset meets both invariants, a step keeps them by O57 and O58, and every other
transaction leaves alone what they speak of. -/
theorem everyScheduleKeepsTheInvariants : Obligations.EveryScheduleKeepsTheInvariants := by
  unfold Obligations.EveryScheduleKeepsTheInvariants
  intro txs u u' hinv heven h
  exact transactAll_keeps (P := Session.Good) (fun _ _ _ _ _ => transact_keeps_good) h ⟨hinv, heven⟩

end Sys2Proof.Machine

namespace Sys2Proof.Machine

/-! ## Every step answers -/

theorem guardRange_answers (a n : Nat) (s t : State) : ∃ u, guardRange a n s (.next t) = .next u := by
  obtain ⟨-, h⟩ | ⟨-, h⟩ := guardRange_cases a n s (.next t) <;> exact ⟨_, h⟩

theorem withNibble_answers (b : Byte) (s : State) (use : Nibble → State) :
    ∃ u, withNibble b s (fun d => .next (use d)) = .next u := by
  obtain ⟨_, h⟩ | ⟨-, h⟩ := withNibble_cases b s fun d => .next (use d) <;> exact ⟨_, h⟩

theorem jumpTo_answers (a : Word) (s rest : State) : ∃ u, jumpTo a s rest = .next u := by
  obtain ⟨-, h⟩ | ⟨-, h⟩ := jumpTo_cases a s rest <;> exact ⟨_, h⟩

/-- Every instruction answers a next state: its update or the error its check raises (60 R222). -/
theorem exec_answers (i : Instr) (s : State) : ∃ t, exec i s = .next t := by
  cases i with
  | ret =>
    simp only [exec, execRet]
    split <;> exact ⟨_, rfl⟩
  | call nnn =>
    simp only [exec, execCall]
    split
    · exact ⟨_, rfl⟩
    · exact jumpTo_answers _ s _
  | jp | jpV0 => exact jumpTo_answers _ s s
  | skp | sknp | ldFVx => exact withNibble_answers _ s _
  | drw | ldBVx | ldMemVx | ldVxMem => exact guardRange_answers _ _ s _
  | _ => exact ⟨_, rfl⟩

/-- Settles O15. By the mode; a running step ends in an error or in an instruction, which answers. -/
theorem everyStepAnswersANextState : Obligations.EveryStepAnswersANextState := by
  unfold Obligations.EveryStepAnswersANextState
  refine ⟨exec_answers, fun s => ?_⟩
  cases hmode : s.mode with
  | running =>
    rw [step_running hmode]
    obtain ⟨-, h⟩ | ⟨-, -, h⟩ | ⟨-, i, -, h⟩ := stepRunning_cases s
    · exact ⟨_, h⟩
    · exact ⟨_, h⟩
    · rw [h]; exact exec_answers i s.advance
  | waitingForKey => exact ⟨_, step_waiting hmode⟩
  | halted => exact ⟨_, step_halted hmode⟩

/-! ## The running step and its errors -/

/-- Settles O8. -/
theorem runningStepExecutesTheDecodedInstruction : Obligations.RunningStepExecutesTheDecodedInstruction := by
  unfold Obligations.RunningStepExecutesTheDecodedInstruction
  intro s i hmode hpc hdec
  exact step_eq_exec_of_decode hmode (by omega) hdec

/-- A running step whose fetch reaches past 0xFFF raises the first such address (40 R101). -/
theorem step_eq_fatal_of_fetch_outside {s : State} (hmode : s.mode = .running) (hpc : 4096 < s.pc.toNat + 2) :
    step s = fatal (.addressOutOfRange (max s.pc.toNat 4096) s.pc) s := by
  rw [step_running hmode]
  obtain ⟨-, h⟩ | ⟨hin, -⟩ | ⟨hin, -⟩ := stepRunning_cases s
  · exact h
  · omega
  · omega

/-- A running step on an unknown word raises it, with the fetch advance kept (40 R103). -/
theorem step_eq_fatal_of_decode_eq_none {s : State} (hmode : s.mode = .running) (hpc : s.pc.toNat + 2 ≤ 4096)
    (hdec : decode s.fetchWord = none) : step s = fatal (.unknownOpcode s.fetchWord s.pc) s.advance := by
  rw [step_running hmode]
  obtain ⟨hout, -⟩ | ⟨-, -, h⟩ | ⟨-, i, hsome, -⟩ := stepRunning_cases s
  · omega
  · exact h
  · simp [hdec] at hsome

/-- Settles O10. The first address above 0xFFF is 0x1000, or `pc` where `pc` itself is above. -/
theorem fetchPastMemoryHalts : Obligations.FetchPastMemoryHalts := by
  unfold Obligations.FetchPastMemoryHalts
  intro s hmode hpc
  have hfirst : (if s.pc.toNat ≤ 0xFFF then 0x1000 else s.pc.toNat) = max s.pc.toNat 4096 := by
    split <;> omega
  rw [step_eq_fatal_of_fetch_outside hmode (by omega), hfirst]
  exact stopsWith_fatal _ s

/-- Settles O11. -/
theorem unknownOpcodeHalts : Obligations.UnknownOpcodeHalts := by
  unfold Obligations.UnknownOpcodeHalts
  refine ⟨fun s hmode hpc hdec => ?_, by decide⟩
  exact ⟨_, step_eq_fatal_of_decode_eq_none hmode (by omega) hdec, rfl, rfl, rfl,
    (onlyChanges_writePc s _).append (onlyChanges_raise s.advance _)⟩

/-- An instruction that halts a core which was not halted has changed the mode alone (60 R221). -/
theorem exec_halts_onlyChanges {i : Instr} {s t : State} {e : FatalError} (h : exec i s = .next t)
    (hmode : t.mode = .halted e) (hs : s.mode = .running) : OnlyChanges [.mode] s t := by
  obtain ⟨e', rfl, -⟩ | heff := exec_cases h
  · exact onlyChanges_raise s e'
  · cases i with
    | ldVxK => obtain rfl := heff; cases hmode
    | _ =>
      have hkept : t.mode = s.mode := heff.onlyChanges .mode (by simp [Instr.parts])
      rw [hkept, hs] at hmode
      cases hmode

/-- Settles O16. By where the running step raised: the fetch, the decoder, or the instruction's own check. -/
theorem everyErrorIsPrecise : Obligations.EveryErrorIsPrecise := by
  unfold Obligations.EveryErrorIsPrecise
  intro s t e hmode h hhalt
  obtain ⟨hpc, rfl⟩ | ⟨hpc, -, rfl⟩ | ⟨hpc, i, -, hexec⟩ := step_running_cases hmode h
  · exact ⟨fun _ => by omega, fun _ => rfl, (onlyChanges_raise s _).mono (by simp)⟩
  · exact ⟨fun _ => rfl, fun _ => by omega, (onlyChanges_writePc s _).append (onlyChanges_raise s.advance _)⟩
  · have hframe := exec_halts_onlyChanges hexec hhalt hmode
    exact ⟨fun _ => hframe .pc (by simp), fun _ => by omega, (onlyChanges_writePc s _).append hframe⟩

/-! ## The halted core -/

/-- A machine whose step leaves a state as it is stays there for any number of steps. -/
theorem run_of_step_eq_self {M : Host.Core} {s : M.State} (h : M.step s = .next s) (k : Nat) : M.run k s = .next s := by
  induction k with
  | zero => rfl
  | succ k ih => rw [Host.Core.run, h]; exact ih

/-- A transaction of a halted core, other than a reset or a load before the first step, leaves all but the keypad. -/
theorem transact_halted {tx : Transaction} {u u' : Session} {r : Response} {e : FatalError} (hreset : tx ≠ .reset)
    (hstepped : u.stepped = true) (hmode : u.state.mode = .halted e) (h : transact tx u = .next (u', r)) :
    u'.stepped = true ∧ OnlyChanges [.key] u.state u'.state := by
  obtain ⟨hr, -⟩ | ⟨_, -, hfresh, -⟩ | ⟨b, kc, t, -, hstep, rfl⟩ | ⟨-, rfl⟩ | ⟨k, p, -, rfl⟩ | rfl := transact_cases h
  · exact absurd hr hreset
  · simp [hstepped] at hfresh
  · rw [stepWith_eq_mapNext, step_halted (s := u.state.withDraws b kc) hmode] at hstep
    obtain rfl := Host.Outcome.next.inj hstep
    exact ⟨rfl, OnlyChanges.refl _ _⟩
  · obtain ⟨_, -, htick⟩ | ⟨hgo, -⟩ := tickTx_cases u.state
    · rw [htick]; exact ⟨hstepped, OnlyChanges.refl _ _⟩
    · exact absurd hmode (hgo e)
  · exact ⟨hstepped, onlyChanges_keyWriteTx k p u.state⟩
  · exact ⟨hstepped, OnlyChanges.refl _ _⟩

/-- Since `u`, a session has stayed after its first step and has kept all but the keypad. -/
def Session.KeepsAllButKeys (u v : Session) : Prop := v.stepped = true ∧ OnlyChanges [.key] u.state v.state

/-- Settles O12. A step of a halted core is the identity; along a schedule, each transaction leaves all but the keypad. -/
theorem haltedUntilReset : Obligations.HaltedUntilReset := by
  unfold Obligations.HaltedUntilReset
  refine ⟨fun s e k hmode => ⟨?_, by simp [State.outcome, hmode]⟩, ?_⟩
  · exact run_of_step_eq_self (M := Sys2Proof.core) (step_halted hmode) k
  · intro txs u u' e hnoreset hstepped hmode h
    have hkeep : ∀ tx ∈ txs, ∀ v v' r, u.KeepsAllButKeys v → transact tx v = .next (v', r) → u.KeepsAllButKeys v' := by
      rintro tx htx v v' r ⟨hv, hframe⟩ htrans
      have hvmode : v.state.mode = .halted e := Eq.trans (hframe .mode (by simp)) hmode
      obtain ⟨hv', hframe'⟩ := transact_halted (fun heq => hnoreset (heq ▸ htx)) hv hvmode htrans
      exact ⟨hv', hframe.trans hframe'⟩
    obtain ⟨hstepped', hframe⟩ := transactAll_keeps hkeep h ⟨hstepped, OnlyChanges.refl _ _⟩
    exact ⟨Eq.trans (hframe .mode (by simp)) hmode, hstepped', hframe⟩

/-! ## The waiting core -/

theorem readV_resume (s : State) (x k r : Nibble) :
    (s.resume x k).readV r = if r = x then BitVec.ofNat 8 k.val else s.readV r := readV_writeV s x r _

/-- The register that a resuming step writes names the key (40 R106). -/
theorem toNat_readV_resume_same (s : State) (x k : Nibble) : ((s.resume x k).readV x).toNat = k.val := by
  rw [readV_resume, if_pos rfl, BitVec.toNat_ofNat, Nat.mod_eq_of_lt (by omega)]

/-- Settles O13. By whether the set of newly pressed keys is empty. -/
theorem waitingStepFollowsTheKeypad : Obligations.WaitingStepFollowsTheKeypad := by
  unfold Obligations.WaitingStepFollowsTheKeypad
  intro s x snap hmode
  rw [step_waiting hmode]
  obtain ⟨hnone, hwait⟩ | ⟨k, hk, hwait⟩ := waitStep_cases x snap s <;> rw [hwait]
  · refine ⟨fun ⟨k, hk⟩ => ?_, fun _ => ⟨_, rfl, rfl, rfl, onlyChanges_writeMode s _⟩⟩
    have : k ∈ newlyPressed s.key snap := (mem_newlyPressed _ _ k).mpr hk
    simp [hnone] at this
  · obtain ⟨hpressed, hnew⟩ := (mem_newlyPressed _ _ k).mp hk
    refine ⟨fun _ => ?_, fun hold => ?_⟩
    · exact ⟨_, k, rfl, hpressed, hnew, toNat_readV_resume_same s x k, rfl, rfl,
        fun r hr => by rw [readV_resume, if_neg hr], onlyChanges_resume s x k⟩
    · simp [hold k hpressed] at hnew

theorem waitStep_of_pickKey {s : State} {x k : Nibble} {snap : Vector Bool 16}
    (h : pickKey s.keyRand.next.1 (newlyPressed s.key snap) = some k) : waitStep x snap s = s.resume x k := by
  simp [waitStep, h]

theorem waitStep_of_pickKey_none {s : State} {x : Nibble} {snap : Vector Bool 16}
    (h : pickKey s.keyRand.next.1 (newlyPressed s.key snap) = none) :
    waitStep x snap s = { s with mode := .waitingForKey x s.key } := by
  simp [waitStep, h]

/-- Settles O14. The draw is the key's own index among the newly pressed keys. -/
theorem everyNewlyPressedKeyCanBeChosen : Obligations.EveryNewlyPressedKeyCanBeChosen := by
  unfold Obligations.EveryNewlyPressedKeyCanBeChosen
  intro s x k snap r hmode hpressed hnew
  obtain ⟨kc, hlt, hget⟩ := List.getElem_of_mem ((mem_newlyPressed s.key snap k).mpr ⟨hpressed, hnew⟩)
  have hpick : pickKey kc (newlyPressed s.key snap) = some k := by
    rw [pickKey, Nat.mod_eq_of_lt hlt, List.getElem?_eq_getElem hlt, hget]
  have hwait : waitStep x snap (s.withDraws r kc) = (s.withDraws r kc).resume x k := waitStep_of_pickKey hpick
  refine ⟨kc, ((s.withDraws r kc).resume x k).withSources s.rand s.keyRand, ?_, toNat_readV_resume_same _ x k, rfl⟩
  rw [stepWith_eq_mapNext, step_waiting (s := s.withDraws r kc) hmode, hwait, mapNext]

/-- Settles O50. No key pressed is missing from a snapshot just taken, so the next step takes the same one again. -/
theorem waitForKeyStartsWithASnapshot : Obligations.WaitForKeyStartsWithASnapshot := by
  unfold Obligations.WaitForKeyStartsWithASnapshot
  intro x s
  refine ⟨{ s with mode := .waitingForKey x s.key }, rfl, rfl, rfl, onlyChanges_writeMode s _, ?_⟩
  obtain ⟨-, hwait⟩ | ⟨k, hk, -⟩ := waitStep_cases x s.key { s with mode := .waitingForKey x s.key }
  · exact ⟨_, (step_waiting rfl).trans (congrArg _ hwait), rfl, OnlyChanges.refl _ _⟩
  · simp [mem_newlyPressed] at hk

/-! ## Timers and reads -/

theorem toNat_countDown (b : Byte) : (countDown b).toNat = b.toNat - 1 := by
  unfold countDown
  split
  · next h => rw [h]; rfl
  · next h =>
    have : b.toNat ≠ 0 := fun h0 => h (BitVec.eq_of_toNat_eq h0)
    have := b.isLt
    rw [BitVec.toNat_sub_of_le (by rw [BitVec.le_def]; simp; omega)]
    rfl

/-- A tick of a core that is not halted takes one from each timer (60 R230). -/
theorem toNat_timers_tickTx {s : State} (h : ∀ e, s.mode ≠ .halted e) :
    (tickTx s).dt.toNat = s.dt.toNat - 1 ∧ (tickTx s).st.toNat = s.st.toNat - 1 := by
  obtain ⟨e, he, -⟩ | ⟨-, htick⟩ := tickTx_cases s
  · exact absurd he (h e)
  · rw [htick]; exact ⟨toNat_countDown s.dt, toNat_countDown s.st⟩

theorem tickTx_mode (s : State) : (tickTx s).mode = s.mode := onlyChanges_tickTx s .mode (by simp)

/-- `k` ticks take `k` from each timer, clamped at 0. -/
theorem toNat_timers_iterate_tickTx {s : State} (h : ∀ e, s.mode ≠ .halted e) (k : Nat) :
    (tickTx^[k] s).dt.toNat = s.dt.toNat - k ∧ (tickTx^[k] s).st.toNat = s.st.toNat - k := by
  induction k generalizing s with
  | zero => exact ⟨rfl, rfl⟩
  | succ k ih =>
    obtain ⟨hdt, hst⟩ := toNat_timers_tickTx h
    obtain ⟨ihdt, ihst⟩ := ih (s := tickTx s) (by rwa [tickTx_mode])
    rw [Function.iterate_succ_apply]
    omega

/-- Settles O52. -/
theorem tickCountsDownUnlessHalted : Obligations.TickCountsDownUnlessHalted := by
  unfold Obligations.TickCountsDownUnlessHalted
  refine fun s => ⟨fun hgo => ?_, fun e hmode => ?_⟩
  · obtain ⟨hdt, hst⟩ := toNat_timers_tickTx hgo
    exact ⟨hdt, hst, onlyChanges_tickTx s⟩
  · obtain ⟨_, -, htick⟩ | ⟨hgo, -⟩ := tickTx_cases s
    · rw [htick]; exact OnlyChanges.refl _ s
    · exact absurd hmode (hgo e)

/-- The sound is active exactly where ST is not 0 (60 R233). -/
theorem soundTx_eq (s : State) : soundTx s = (s.st, decide (s.st.toNat ≠ 0)) := by
  have hactive : (s.st != 0#8) = decide (s.st.toNat ≠ 0) := by
    rw [Bool.eq_iff_iff]
    simp [← BitVec.toNat_inj]
  rw [soundTx, hactive]

/-- Settles O51. Each load is one write, from which `k` ticks count down. -/
theorem timerMoves : Obligations.TimerMoves := by
  unfold Obligations.TimerMoves
  intro x s
  refine ⟨writesReg_of_exec_eq_writeV (b := s.dt) rfl rfl, ?_, ?_⟩
  · exact ⟨{ s with dt := s.readV x }, rfl, rfl, onlyChanges_writeDt s _, fun hgo k =>
      (toNat_timers_iterate_tickTx (s := { s with dt := s.readV x }) hgo k).1⟩
  · exact ⟨{ s with st := s.readV x }, rfl, rfl, onlyChanges_writeSt s _, soundTx_eq _, fun hgo k =>
      (toNat_timers_iterate_tickTx (s := { s with st := s.readV x }) hgo k).2⟩

/-- Settles O55. -/
theorem readsChangeNothing : Obligations.ReadsChangeNothing := by
  unfold Obligations.ReadsChangeNothing
  intro u
  refine ⟨rfl, ?_, rfl⟩
  rw [transact, soundTx_eq]

end Sys2Proof.Machine

namespace Sys2Proof.Machine

/-! ## Who writes what -/

/-- Settles O19. An instruction that may write a register writes its own, VF, or V0 to Vx; every other one keeps the part. -/
theorem onlyListedInstructionsWriteARegister : Obligations.OnlyListedInstructionsWriteARegister := by
  unfold Obligations.OnlyListedInstructionsWriteARegister
  intro i s t r h hlist
  obtain ⟨e, rfl, -⟩ | heff := exec_cases h
  · rfl
  · cases i with
    | ldByte x | addByte x | ldReg x | orReg x | andReg x | xorReg x | ldVxDt x =>
      obtain ⟨b, rfl⟩ := heff
      exact readV_writeV_ne s b (by simpa [Instr.writesV] using hlist)
    | rnd x => obtain rfl := heff; exact readV_writeV_ne s _ (by simpa [Instr.writesV] using hlist)
    | addReg x | sub x | shr x | subn x | shl x =>
      obtain ⟨b, c, rfl⟩ := heff
      obtain ⟨hx, hvf⟩ : r ≠ x ∧ r ≠ vf := by simpa [Instr.writesV] using hlist
      rw [readV_writeVAndFlag, if_neg hvf, if_neg hx]
    | drw => obtain ⟨d, b, rfl⟩ := heff; exact readV_writeV_ne _ b (by simpa [Instr.writesV] using hlist)
    | ldVxMem x =>
      obtain ⟨bs, hlen, rfl⟩ := heff
      have hr : x.val < r.val := not_le.mp (of_decide_eq_false hlist)
      rw [readV_storeRegs, dif_neg (by rw [hlen]; omega)]
    | _ => exact heff.onlyChanges .v (by simp [Instr.parts]) r

/-- Settles O22. The two stores keep memory outside their block; every other instruction keeps the part. -/
theorem onlyBcdAndBlockStoreWriteMemory : Obligations.OnlyBcdAndBlockStoreWriteMemory := by
  unfold Obligations.OnlyBcdAndBlockStoreWriteMemory
  intro i s t h
  refine ⟨fun hother => exec_onlyChanges h .mem ?_, ?_, ?_⟩
  · cases i with
    | ldBVx x => exact absurd rfl (hother x).1
    | ldMemVx x => exact absurd rfl (hother x).2
    | _ => simp [Instr.parts]
  · rintro x rfl
    obtain ⟨e, rfl, -⟩ | ⟨-, rfl⟩ := exec_cases h
    · exact fun _ _ => rfl
    · exact memKeptOutside_storeBytes s s.i.toNat (bcdDigits (s.readV x))
  · rintro x rfl
    obtain ⟨e, rfl, -⟩ | ⟨-, rfl⟩ := exec_cases h
    · exact fun _ _ => rfl
    · have hkept := memKeptOutside_storeBytes s s.i.toNat (s.regsUpTo x)
      rwa [length_regsUpTo] at hkept

/-- Settles O23. Each part is changed by the instructions that list it, and the mode by an error besides. -/
theorem otherStateIsWrittenOnlyByItsInstructions : Obligations.OtherStateIsWrittenOnlyByItsInstructions := by
  unfold Obligations.OtherStateIsWrittenOnlyByItsInstructions
  intro i s t h
  have hframe := exec_onlyChanges h
  refine ⟨fun hcls hdrw => hframe .disp ?_, fun hother => hframe .i ?_, fun hother => hframe .dt ?_,
    fun hother => hframe .st ?_, fun hother hgo => ?_, exec_params h⟩
  · cases i with
    | cls => exact absurd rfl hcls
    | drw x y n => exact absurd rfl (hdrw x y n)
    | _ => simp [Instr.parts]
  · cases i with
    | ldI nnn => exact absurd rfl (hother nnn 0).1
    | addIVx x => exact absurd rfl (hother 0 x).2.1
    | ldFVx x => exact absurd rfl (hother 0 x).2.2
    | _ => simp [Instr.parts]
  · cases i with
    | ldDtVx x => exact absurd rfl (hother x)
    | _ => simp [Instr.parts]
  · cases i with
    | ldStVx x => exact absurd rfl (hother x)
    | _ => simp [Instr.parts]
  · obtain ⟨e, rfl, -⟩ | heff := exec_cases h
    · exact absurd rfl (hgo e)
    · refine heff.onlyChanges .mode ?_
      cases i with
      | ldVxK x => exact absurd rfl (hother x)
      | _ => simp [Instr.parts]

/-! ## Overwriting the keypad and the draw sources

What `exec_withStack` is for the stack, `exec_withInputs` is for what the spec calls inputs of the step (10 R46): the keypad
and the draws. -/

/-- `s` with another keypad and other draw sources. -/
def State.withInputs (keys : Vector Bool 16) (rand : RandSource) (keyRand : KeySource) (s : State) : State :=
  { s with key := keys, rand := rand, keyRand := keyRand }

section
variable (keys : Vector Bool 16) (rand : RandSource) (keyRand : KeySource)

theorem skipIf_withInputs (s : State) (c : Bool) :
    (s.withInputs keys rand keyRand).skipIf c = (s.skipIf c).withInputs keys rand keyRand := by
  cases c <;> rfl

theorem storeBytes_withInputs (s : State) (a : Nat) (bs : List Byte) :
    (s.withInputs keys rand keyRand).storeBytes a bs = (s.storeBytes a bs).withInputs keys rand keyRand := by
  induction bs generalizing s a with
  | nil => rfl
  | cons b bs ih => exact ih (s.writeByte a b) (a + 1)

theorem storeRegs_withInputs (s : State) (r : Nat) (bs : List Byte) :
    (s.withInputs keys rand keyRand).storeRegs r bs = (s.storeRegs r bs).withInputs keys rand keyRand := by
  induction bs generalizing s r with
  | nil => rfl
  | cons b bs ih => exact ih { s with v := s.v.setIfInBounds r b } (r + 1)

theorem loadBytes_withInputs (s : State) (a n : Nat) :
    (s.withInputs keys rand keyRand).loadBytes a n = s.loadBytes a n := by
  induction n generalizing a with
  | zero => rfl
  | succ n ih => exact congrArg (s.readByte a :: ·) (ih (a + 1))

theorem drawSprite_withInputs (x y n : Nibble) (s : State) :
    drawSprite x y n (s.withInputs keys rand keyRand) = drawSprite x y n s :=
  congrArg (drawRows (s.readV x).toNat (s.readV y).toNat · (s.disp, false)) (loadBytes_withInputs keys rand keyRand s _ _)

theorem jumpTo_withInputs (a : Word) (s rest : State) :
    jumpTo a (s.withInputs keys rand keyRand) (rest.withInputs keys rand keyRand) =
      mapNext (State.withInputs keys rand keyRand) (jumpTo a s rest) := by
  have hrej : (s.withInputs keys rand keyRand).rejectsTarget a = s.rejectsTarget a := rfl
  unfold jumpTo
  rw [hrej]
  split <;> rfl

/-- An instruction that draws no byte runs with any draw sources as with the state's own, and with any keypad where it reads
no key. -/
theorem exec_withInputs {i : Instr} (s : State) (hrnd : ∀ x kk, i ≠ .rnd x kk)
    (hkey : keys = s.key ∨ ∀ x, i ≠ .skp x ∧ i ≠ .sknp x ∧ i ≠ .ldVxK x) :
    exec i (s.withInputs keys rand keyRand) = mapNext (State.withInputs keys rand keyRand) (exec i s) := by
  have hraise (e : FatalError) :
      (s.raise e).withInputs keys rand keyRand = (s.withInputs keys rand keyRand).raise e := rfl
  have hpc : (s.withInputs keys rand keyRand).pc = s.pc := rfl
  cases i with
  | rnd x kk => exact absurd rfl (hrnd x kk)
  | skp x | sknp x =>
    obtain rfl | hno := hkey
    · refine Eq.trans ?_ (withNibble_mapNext hraise hpc _ _)
      exact congrArg (withNibble _ _) (funext fun k => congrArg _ (skipIf_withInputs s.key rand keyRand s _))
    · have := hno x; simp at this
  | ldVxK x =>
    obtain rfl | hno := hkey
    · rfl
    · have := hno x; simp at this
  | ret =>
    simp only [exec, execRet]
    rw [show (s.withInputs keys rand keyRand).stackEmpty = s.stackEmpty from rfl]
    split <;> rfl
  | call nnn =>
    simp only [exec, execCall]
    rw [show (s.withInputs keys rand keyRand).stackFull = s.stackFull from rfl]
    split
    · rfl
    · exact jumpTo_withInputs keys rand keyRand (immAddr nnn) s (s.push s.pc)
  | jp nnn => exact jumpTo_withInputs keys rand keyRand (immAddr nnn) s s
  | jpV0 nnn => exact jumpTo_withInputs keys rand keyRand (tableTarget nnn (s.readV 0)) s s
  | seByte | sneByte | seReg | sneReg => exact congrArg _ (skipIf_withInputs keys rand keyRand s _)
  | ldFVx x => exact withNibble_mapNext hraise hpc (s.readV x) fun d => .next (s.writeI (glyphAddr s.params d))
  | ldBVx | ldMemVx =>
    refine Eq.trans ?_ (guardRange_mapNext hraise hpc _ _ _)
    exact congrArg (guardRange _ _ _) (congrArg _ (storeBytes_withInputs keys rand keyRand s _ _))
  | ldVxMem x =>
    refine Eq.trans ?_ (guardRange_mapNext hraise hpc _ _ _)
    simp only [exec, execLdVxMem, loadBytes_withInputs, storeRegs_withInputs]
    rfl
  | drw x y n =>
    refine Eq.trans ?_ (guardRange_mapNext hraise hpc _ _ _)
    simp only [exec, execDrw, drawSprite_withInputs]
    rfl
  | cls | sys | ldByte | addByte | ldReg | orReg | andReg | xorReg | addReg | sub | shr | subn | shl | ldI | ldVxDt | ldDtVx
  | ldStVx | addIVx => rfl

end

/-- No step changes a key (10 R39). -/
theorem step_key {s t : State} (h : step s = .next t) (k : Nibble) : t.key[k] = s.key[k] := by
  cases hmode : s.mode with
  | running =>
    obtain ⟨-, rfl⟩ | ⟨-, -, rfl⟩ | ⟨-, i, -, hexec⟩ := step_running_cases hmode h
    · rfl
    · rfl
    · exact exec_onlyChanges hexec .key (by cases i <;> simp [Instr.parts]) k
  | waitingForKey x snap =>
    rw [step_waiting hmode] at h
    obtain rfl := Host.Outcome.next.inj h
    exact onlyChanges_waitStep x snap s .key (by simp) k
  | halted e =>
    rw [step_halted hmode] at h
    obtain rfl := Host.Outcome.next.inj h
    rfl

/-- Settles O21. That the effect is the same on any keypad is `exec_withInputs` with the state's own draw sources, which an
instruction other than RND hands on as they were. -/
theorem theCoreOnlyReadsTheKeypad : Obligations.TheCoreOnlyReadsTheKeypad := by
  unfold Obligations.TheCoreOnlyReadsTheKeypad
  refine ⟨fun s t => step_key, fun i s t keys hkeypad h => ?_, fun k p s => ⟨?_, fun j hj => ?_, onlyChanges_keyWriteTx k p s⟩⟩
  · by_cases hrnd : ∃ x kk, i = .rnd x kk
    · obtain ⟨x, kk, rfl⟩ := hrnd
      obtain rfl := Host.Outcome.next.inj h
      rfl
    · have hrand : t.rand = s.rand := exec_onlyChanges h .rand (by cases i <;> simp_all [Instr.parts])
      have hkeyRand : t.keyRand = s.keyRand := exec_onlyChanges h .keyRand (by cases i <;> simp [Instr.parts])
      have hany := exec_withInputs keys s.rand s.keyRand s (by simpa using hrnd) (.inr hkeypad)
      have hown : t.withInputs keys s.rand s.keyRand = { t with key := keys } := by
        rw [State.withInputs, ← hrand, ← hkeyRand]
      rw [h, mapNext, hown] at hany
      exact hany
  · simp [keyWriteTx]
  · simp [keyWriteTx, Vector.getElem_set_ne, Fin.val_ne_of_ne hj.symm]

/-! ## The draws of a step -/

/-- A running step that executes RND. -/
def State.ExecutesRnd (s : State) : Prop :=
  s.mode = .running ∧ s.pc.toNat + 1 ≤ 0xFFF ∧ ∃ x kk, decode s.fetchWord = some (.rnd x kk)

theorem exec_key {i : Instr} {s t : State} (h : exec i s = .next t) : t.key = s.key := by
  have hkeys : ∀ k : Nibble, t.key[k] = s.key[k] := exec_onlyChanges h .key (by cases i <;> simp [Instr.parts])
  exact Vector.ext fun k hk => hkeys ⟨k, hk⟩

/-- An instruction other than RND hands any draw sources on as they were. -/
theorem exec_withSources_of_ne_rnd {i : Instr} {s t : State} (hrnd : ∀ x kk, i ≠ .rnd x kk) (h : exec i s = .next t)
    (rand : RandSource) (keyRand : KeySource) :
    exec i (s.withSources rand keyRand) = .next (t.withSources rand keyRand) := by
  have hown : t.withInputs s.key rand keyRand = t.withSources rand keyRand := by rw [← exec_key h]; rfl
  exact (exec_withInputs s.key rand keyRand s hrnd (.inl rfl)).trans (by rw [h, mapNext, hown])

section
variable {ra rb : RandSource} {ka kb : KeySource} (rand : RandSource) (keyRand : KeySource)

/-- With the sources put aside, an instruction answers the same on any two pairs of them, RND where both hold the same byte
next. -/
theorem exec_withSources_congr (i : Instr) (s : State) (hrnd : (∃ x kk, i = .rnd x kk) → ra.next.1 = rb.next.1) :
    mapNext (State.withSources rand keyRand) (exec i (s.withSources ra ka)) =
      mapNext (State.withSources rand keyRand) (exec i (s.withSources rb kb)) := by
  by_cases hi : ∃ x kk, i = .rnd x kk
  · obtain ⟨x, kk, rfl⟩ := hi
    have hanswer (r : RandSource) (k : KeySource) :
        mapNext (State.withSources rand keyRand) (exec (.rnd x kk) (s.withSources r k)) =
          .next ((s.writeV x (r.next.1 &&& kk)).withSources rand keyRand) := rfl
    rw [hanswer, hanswer, hrnd ⟨x, kk, rfl⟩]
  · obtain ⟨t, ht⟩ := exec_answers i s
    have hne : ∀ x kk, i ≠ .rnd x kk := by simpa using hi
    rw [exec_withSources_of_ne_rnd hne ht, exec_withSources_of_ne_rnd hne ht]
    rfl

/-- With the sources put aside, a waiting step answers the same on any two that hold the same key choice next. -/
theorem waitStep_withSources_congr (x : Nibble) (snap : Vector Bool 16) (s : State) (hkc : ka.next.1 = kb.next.1) :
    (waitStep x snap (s.withSources ra ka)).withSources rand keyRand =
      (waitStep x snap (s.withSources rb kb)).withSources rand keyRand := by
  cases hpick : pickKey kb.next.1 (newlyPressed s.key snap) with
  | some k =>
    rw [waitStep_of_pickKey (s := s.withSources ra ka) (hkc.symm ▸ hpick),
      waitStep_of_pickKey (s := s.withSources rb kb) hpick]
    rfl
  | none =>
    rw [waitStep_of_pickKey_none (s := s.withSources ra ka) (hkc.symm ▸ hpick),
      waitStep_of_pickKey_none (s := s.withSources rb kb) hpick]
    rfl

/-- With the sources put aside, a step answers the same on any two pairs of them that agree on the draw it uses, if any. -/
theorem step_withSources_congr (s : State) (hrnd : s.ExecutesRnd → ra.next.1 = rb.next.1)
    (hwait : (∃ x snap, s.mode = .waitingForKey x snap) → ka.next.1 = kb.next.1) :
    mapNext (State.withSources rand keyRand) (step (s.withSources ra ka)) =
      mapNext (State.withSources rand keyRand) (step (s.withSources rb kb)) := by
  cases hmode : s.mode with
  | halted e =>
    rw [step_halted (s := s.withSources ra ka) hmode, step_halted (s := s.withSources rb kb) hmode]
    rfl
  | waitingForKey x snap =>
    rw [step_waiting (s := s.withSources ra ka) hmode, step_waiting (s := s.withSources rb kb) hmode]
    exact congrArg Host.Outcome.next (waitStep_withSources_congr rand keyRand x snap s (hwait ⟨x, snap, hmode⟩))
  | running =>
    by_cases hpc : s.pc.toNat + 2 ≤ 4096
    · cases hdec : decode s.fetchWord with
      | none =>
        rw [step_eq_fatal_of_decode_eq_none (s := s.withSources ra ka) hmode hpc hdec,
          step_eq_fatal_of_decode_eq_none (s := s.withSources rb kb) hmode hpc hdec]
        rfl
      | some i =>
        rw [step_eq_exec_of_decode (s := s.withSources ra ka) hmode hpc hdec,
          step_eq_exec_of_decode (s := s.withSources rb kb) hmode hpc hdec]
        exact exec_withSources_congr rand keyRand i s.advance fun ⟨x, kk, hi⟩ =>
          hrnd ⟨hmode, by omega, x, kk, hi ▸ hdec⟩
    · rw [step_eq_fatal_of_fetch_outside (s := s.withSources ra ka) hmode (Nat.lt_of_not_le hpc),
        step_eq_fatal_of_fetch_outside (s := s.withSources rb kb) hmode (Nat.lt_of_not_le hpc)]
      rfl

end

/-- Settles O17. The two transactions differ only in the source whose draw the step does not use. -/
theorem stepsIgnoreTheDrawsTheyDoNotUse : Obligations.StepsIgnoreTheDrawsTheyDoNotUse := by
  unfold Obligations.StepsIgnoreTheDrawsTheyDoNotUse
  refine ⟨fun s r r' kc hrnd => ?_, fun s r kc kc' hwait => ?_⟩
  · rw [stepWith_eq_mapNext, stepWith_eq_mapNext]
    exact step_withSources_congr _ _ s (fun h => absurd h hrnd) fun _ => rfl
  · rw [stepWith_eq_mapNext, stepWith_eq_mapNext]
    exact step_withSources_congr _ _ s (fun _ => rfl) fun ⟨x, snap, h⟩ => absurd h (hwait x snap)

/-- Settles O18. The scripted draws are the ones that the state's own sources hold next. -/
theorem stepIsTheTransactionWithItsOwnDraws : Obligations.StepIsTheTransactionWithItsOwnDraws := by
  unfold Obligations.StepIsTheTransactionWithItsOwnDraws
  intro s t h
  have hown : stepWith s.rand.next.1 s.keyRand.next.1 s = mapNext (State.withSources s.rand s.keyRand) (step s) := by
    rw [stepWith_eq_mapNext]
    exact step_withSources_congr s.rand s.keyRand s (fun _ => rfl) fun _ => rfl
  rw [h] at hown
  exact ⟨t.withSources s.rand s.keyRand, hown, onlyChanges_withSources _ _ t⟩

end Sys2Proof.Machine

namespace Sys2Proof.Machine

/-! ## The ALU instructions that write VF -/

@[simp] theorem toNat_flagByte (c : Bool) : (flagByte c).toNat = if c then 1 else 0 := by
  cases c <;> rfl

/-- An instruction that ends in `writeVAndFlag` writes its result and then the flag (42 R152). -/
theorem writesRegAndFlag_of_exec_eq {i : Instr} {s : State} {x : Nibble} {b : Byte} {c : Bool} {value : Byte → Prop}
    {flag : Nat} (hexec : exec i s = .next (s.writeVAndFlag x b c)) (hvalue : value b)
    (hflag : (if c then 1 else 0) = flag) : WritesRegAndFlag i s x value flag := by
  refine ⟨s.writeVAndFlag x b c, hexec, fun hx => ?_, ?_, fun r hrx hrf => ?_, onlyChanges_writeVAndFlag s x b c⟩
  · rwa [readV_writeVAndFlag, if_neg hx, if_pos rfl]
  · rwa [readV_writeVAndFlag, if_pos rfl, toNat_flagByte]
  · rw [readV_writeVAndFlag, if_neg hrf, if_neg hrx]

theorem exec_addReg (x y : Nibble) (s : State) : exec (.addReg x y) s =
    .next (s.writeVAndFlag x (s.readV x + s.readV y) (carryFlag (s.readV x) (s.readV y))) := rfl

theorem exec_sub (x y : Nibble) (s : State) : exec (.sub x y) s =
    .next (s.writeVAndFlag x (s.readV x - s.readV y) (greaterFlag (s.readV x) (s.readV y))) := rfl

theorem exec_subn (x y : Nibble) (s : State) : exec (.subn x y) s =
    .next (s.writeVAndFlag x (s.readV y - s.readV x) (greaterFlag (s.readV y) (s.readV x))) := rfl

theorem exec_shr (x y : Nibble) (s : State) : exec (.shr x y) s =
    .next (s.writeVAndFlag x (s.readV x >>> 1) (lowBitFlag (s.readV x))) := rfl

theorem exec_shl (x y : Nibble) (s : State) : exec (.shl x y) s =
    .next (s.writeVAndFlag x (s.readV x <<< 1) (highBitFlag (s.readV x))) := rfl

/-- Settles O26. -/
theorem addSetsCarry : Obligations.AddSetsCarry := by
  unfold Obligations.AddSetsCarry
  intro x y s
  exact writesRegAndFlag_of_exec_eq (exec_addReg x y s) (BitVec.toNat_add _ _) (by simp [carryFlag])

/-- A difference of bytes is the integer difference modulo 256 (42 R153). -/
theorem toNat_sub_byte (a b : Byte) : ((a - b).toNat : Int) = (a.toNat - b.toNat : Int) % 256 := by
  have := a.isLt
  have := b.isLt
  rw [BitVec.toNat_sub]
  omega

/-- Settles O27. -/
theorem subtractionsSetStrictlyGreater : Obligations.SubtractionsSetStrictlyGreater := by
  unfold Obligations.SubtractionsSetStrictlyGreater
  intro x y s
  exact ⟨writesRegAndFlag_of_exec_eq (exec_sub x y s) (toNat_sub_byte _ _) (by simp [greaterFlag]),
    writesRegAndFlag_of_exec_eq (exec_subn x y s) (toNat_sub_byte _ _) (by simp [greaterFlag])⟩

/-- The bit that SHR shifts out (42 R148). -/
theorem lowBitFlag_toNat (b : Byte) : (if lowBitFlag b then 1 else 0) = b.toNat % 2 := by
  have : b.toNat % 2 < 2 := Nat.mod_lt _ (by decide)
  simp only [lowBitFlag, BitVec.getLsbD, Nat.testBit_zero, decide_eq_true_eq]
  split <;> omega

/-- The bit that SHL shifts out (42 R150). -/
theorem highBitFlag_toNat (b : Byte) : (if highBitFlag b then 1 else 0) = b.toNat / 128 := by
  have := b.isLt
  simp only [highBitFlag, BitVec.getLsbD, Nat.testBit_eq_decide_div_mod_eq, decide_eq_true_eq]
  split <;> omega

/-- Settles O28. -/
theorem shiftsSetTheBitShiftedOut : Obligations.ShiftsSetTheBitShiftedOut := by
  unfold Obligations.ShiftsSetTheBitShiftedOut
  intro x y s
  refine ⟨writesRegAndFlag_of_exec_eq (exec_shr x y s) ?_ (lowBitFlag_toNat _),
    writesRegAndFlag_of_exec_eq (exec_shl x y s) ?_ (highBitFlag_toNat _)⟩
  · rw [BitVec.toNat_ushiftRight, Nat.shiftRight_eq_div_pow]
  · rw [BitVec.toNat_shiftLeft, Nat.shiftLeft_eq]

theorem exec_rnd (x : Nibble) (kk : Byte) (s : State) : exec (.rnd x kk) s =
    .next { s.writeV x (s.rand.next.1 &&& kk) with rand := s.rand.next.2 } := rfl

/-- Settles O29. The byte drawn is the source's next one. -/
theorem randomByteIsMasked : Obligations.RandomByteIsMasked := by
  unfold Obligations.RandomByteIsMasked
  intro x kk s
  refine ⟨_, s.rand.next.1, exec_rnd x kk s, readV_writeV_same s x _, regsKeptBut_writeV s x _,
    (onlyChanges_writeV s x _).append (onlyChanges_writeRand _ _), fun b rest hscript => ?_, fun hscript => ?_⟩
  · simp [RandSource.next, hscript]
  · simp [RandSource.next, hscript]

/-! ## Control flow -/

/-- Settles O30. -/
theorem sysHasNoEffect : Obligations.SysHasNoEffect := by
  unfold Obligations.SysHasNoEffect
  exact fun _ s => ⟨s, rfl, OnlyChanges.refl [] s⟩

theorem exec_seReg (x y : Nibble) (s : State) :
    exec (.seReg x y) s = .next (s.skipIf (s.readV x == s.readV y)) := rfl

theorem exec_sneReg (x y : Nibble) (s : State) :
    exec (.sneReg x y) s = .next (s.skipIf (s.readV x != s.readV y)) := rfl

/-- Settles O32. Both end in `skipIf`, whose flag compares the two registers. -/
theorem skipsOnRegister : Obligations.SkipsOnRegister := by
  unfold Obligations.SkipsOnRegister
  intro x y s
  exact ⟨skipsWhen_of_exec_eq_skipIf (exec_seReg x y s) beq_iff_eq,
    skipsWhen_of_exec_eq_skipIf (exec_sneReg x y s) bne_iff_ne⟩

/-- Settles O33. A digit operand is the key itself; any other raises the error. -/
theorem skipsOnKey : Obligations.SkipsOnKey := by
  unfold Obligations.SkipsOnKey
  intro x s
  refine ⟨fun k hk => ?_, fun hbig => ?_⟩
  · have hnibble : asNibble (s.readV x) = some k := by simp [asNibble, hk]
    have hskp : exec (.skp x) s = .next (s.skipIf s.key[k]) := by simp only [exec, execSkp, withNibble, hnibble]
    have hsknp : exec (.sknp x) s = .next (s.skipIf (!s.key[k])) := by simp only [exec, execSknp, withNibble, hnibble]
    exact ⟨skipsWhen_of_exec_eq_skipIf hskp Iff.rfl, skipsWhen_of_exec_eq_skipIf hsknp (Iff.of_eq (Bool.not_eq_true' _))⟩
  · have hskp : exec (.skp x) s = fatal (.operandOutOfRange (s.readV x) s.fetchPc) s := withNibble_outside (by omega)
    have hsknp : exec (.sknp x) s = fatal (.operandOutOfRange (s.readV x) s.fetchPc) s := withNibble_outside (by omega)
    rw [hskp, hsknp]
    exact ⟨stopsWith_fatal _ s, stopsWith_fatal _ s⟩

theorem jumpTo_accepted {a : Word} {s rest : State} (h : s.params.oddPc = .allow ∨ a.toNat % 2 = 0) :
    jumpTo a s rest = .next (rest.writePc a) := by
  obtain ⟨-, hjump⟩ | ⟨hrej, -⟩ := jumpTo_cases a s rest
  · exact hjump
  · obtain ⟨hfault, hodd⟩ := (rejectsTarget_iff s a).mp hrej
    obtain hallow | heven := h
    · rw [hallow] at hfault; cases hfault
    · omega

theorem jumpTo_rejected {a : Word} {s rest : State} (hfault : s.params.oddPc = .fault) (hodd : a.toNat % 2 = 1) :
    jumpTo a s rest = fatal (.oddTarget a s.fetchPc) s := by
  rw [jumpTo, (rejectsTarget_iff s a).mpr ⟨hfault, hodd⟩, if_pos rfl]

/-- Settles O34. Both end in `jumpTo`; the mask of JP V0 does not change the target's parity. -/
theorem jumpsReachTheirTarget : Obligations.JumpsReachTheirTarget := by
  unfold Obligations.JumpsReachTheirTarget
  intro nnn s
  have htable := toNat_tableTarget nnn (s.readV 0)
  have htarget : BitVec.ofNat 16 ((nnn.toNat + (s.readV 0).toNat) % 4096) = tableTarget nnn (s.readV 0) := by
    apply BitVec.eq_of_toNat_eq
    rw [BitVec.toNat_ofNat, htable]
    omega
  refine ⟨fun hok => ?_, fun hfault hodd => ?_, fun hok => ?_, fun hfault hodd => ?_⟩
  · exact ⟨_, jumpTo_accepted (by rwa [toNat_immAddr]), toNat_immAddr nnn, onlyChanges_writePc s _⟩
  · have hexec : exec (.jp nnn) s = _ := jumpTo_rejected hfault (by rwa [toNat_immAddr])
    rw [hexec]; exact stopsWith_fatal _ s
  · exact ⟨_, jumpTo_accepted (hok.imp_right fun heven => by rw [htable]; omega), htable, onlyChanges_writePc s _⟩
  · have hexec : exec (.jpV0 nnn) s = _ := jumpTo_rejected hfault (by rw [htable]; omega)
    rw [hexec, htarget]; exact stopsWith_fatal _ s

/-! ## The stack -/

theorem exec_call_of_full {s : State} (h : s.sp.val = 15) (nnn : Addr12) :
    exec (.call nnn) s = fatal .stackOverflow s := by
  have hfull : s.stackFull = true := beq_iff_eq.mpr (Fin.ext h)
  rw [exec, execCall, if_pos hfull]

theorem exec_call_of_not_full {s : State} (h : s.sp.val < 15) (nnn : Addr12) :
    exec (.call nnn) s = jumpTo (immAddr nnn) s (s.push s.pc) := by
  have hfull : ¬ s.stackFull = true := fun hf => by
    have hsp : s.sp = 15 := beq_iff_eq.mp hf
    rw [hsp] at h
    exact absurd h (by decide)
  rw [exec, execCall, if_neg hfull]

theorem exec_ret_of_empty {s : State} (h : s.sp.val = 0) : exec .ret s = fatal .stackUnderflow s := by
  have hempty : s.stackEmpty = true := beq_iff_eq.mpr (Fin.ext h)
  rw [exec, execRet, if_pos hempty]

theorem exec_ret_of_not_empty {s : State} (h : 0 < s.sp.val) : exec .ret s = .next (s.drop.writePc s.top) := by
  have hempty : ¬ s.stackEmpty = true := fun he => by
    have hsp : s.sp = 0 := beq_iff_eq.mp he
    rw [hsp] at h
    exact absurd h (by decide)
  rw [exec, execRet, if_neg hempty]

/-- Below 15 the stack pointer counts up without wrapping. -/
theorem val_add_one_of_lt {k : Nibble} (h : k.val < 15) : (k + 1).val = k.val + 1 := by
  have hsucc : ∀ j : Nibble, j.val < 15 → (j + 1).val = j.val + 1 := by decide
  exact hsucc k h

/-- Settles O35. By `sp`: the overflow check comes first, then the target's parity. -/
theorem callPushesTheReturnAddress : Obligations.CallPushesTheReturnAddress := by
  unfold Obligations.CallPushesTheReturnAddress
  intro nnn s
  refine ⟨fun hsp hok => ?_, fun hsp => ?_, fun hsp hfault hodd => ?_⟩
  · refine ⟨(s.push s.pc).writePc (immAddr nnn), ?_, toNat_immAddr nnn, val_add_one_of_lt hsp, ?_, fun j hj => ?_, ?_⟩
    · rw [exec_call_of_not_full hsp, jumpTo_accepted (by rwa [toNat_immAddr])]
    · exact (getElem_push_stack s s.pc (s.sp + 1)).trans (if_pos rfl)
    · exact (getElem_push_stack s s.pc j).trans (if_neg hj)
    · exact ((onlyChanges_push s s.pc).append (onlyChanges_writePc _ _)).mono (by simp)
  · rw [exec_call_of_full hsp]; exact stopsWith_fatal _ s
  · rw [exec_call_of_not_full hsp, jumpTo_rejected hfault (by rwa [toNat_immAddr])]
    exact stopsWith_fatal _ s

/-- Settles O36. -/
theorem retPopsTheReturnAddress : Obligations.RetPopsTheReturnAddress := by
  unfold Obligations.RetPopsTheReturnAddress
  intro s
  refine ⟨fun hsp => ?_, fun hsp => ?_⟩
  · have hpred : ∀ k : Nibble, 0 < k.val → (k - 1).val + 1 = k.val := by decide
    exact ⟨_, exec_ret_of_not_empty hsp, rfl, hpred s.sp hsp,
      ((onlyChanges_drop s).append (onlyChanges_writePc _ _)).mono (by simp)⟩
  · rw [exec_ret_of_empty hsp]; exact stopsWith_fatal _ s

/-- Settles O37. -/
theorem stackErrorsAreDetected : Obligations.StackErrorsAreDetected := by
  unfold Obligations.StackErrorsAreDetected
  exact fun s => ⟨fun hsp nnn => ⟨_, exec_call_of_full hsp nnn, rfl, rfl⟩, fun hsp => ⟨_, exec_ret_of_empty hsp, rfl, rfl⟩⟩

/-- Settles O38. A CALL that does not halt has pushed its `pc` into the slot that the RET reads. -/
theorem retAfterCallReturns : Obligations.RetAfterCallReturns := by
  unfold Obligations.RetAfterCallReturns
  intro nnn s t u hsp _ hcall hmode husp hustack
  obtain ⟨e, rfl, -⟩ | ⟨-, -, rfl⟩ := exec_cases hcall
  · cases hmode
  · have husp' : u.sp = s.sp + 1 := husp
    have hsucc := val_add_one_of_lt hsp
    refine ⟨_, exec_ret_of_not_empty (by rw [husp', hsucc]; omega), ?_, ?_⟩
    · calc u.top = u.stack[s.sp + 1] := by simp only [State.top, husp']
        _ = (s.push s.pc).stack[s.sp + 1] := hustack (s.sp + 1)
        _ = s.pc := by rw [getElem_push_stack, if_pos rfl]
    · show u.sp - 1 = s.sp
      rw [husp', add_sub_cancel_right]

end Sys2Proof.Machine

namespace Sys2Proof.Machine

/-! ## The address register and the font -/

theorem exec_addIVx (x : Nibble) (s : State) :
    exec (.addIVx x) s = .next (s.writeI (s.i + regAddr (s.readV x))) := rfl

theorem toNat_regAddr (b : Byte) : (regAddr b).toNat = b.toNat := BitVec.toNat_setWidth_of_le (by decide)

theorem toNat_glyphAddr (p : Params) (d : Nibble) : (glyphAddr p d).toNat = p.fontBase.val + 5 * d.val := by
  have := p.fontBase.isLt
  have := d.isLt
  rw [glyphAddr, Config.glyphBytes, BitVec.toNat_ofNat, Nat.mod_eq_of_lt (by omega)]

/-- Settles O40. -/
theorem indexAddAndFontAddress : Obligations.IndexAddAndFontAddress := by
  unfold Obligations.IndexAddAndFontAddress
  intro x s
  refine ⟨⟨_, exec_addIVx x s, ?_, onlyChanges_writeI s _⟩, fun hdigit => ?_, fun hbig => ?_⟩
  · rw [State.writeI_i, BitVec.toNat_add, toNat_regAddr]
  · have hexec : exec (.ldFVx x) s = .next (s.writeI (glyphAddr s.params ⟨(s.readV x).toNat, by omega⟩)) :=
      withNibble_inside (by omega)
    exact ⟨_, hexec, toNat_glyphAddr _ _, onlyChanges_writeI s _⟩
  · have hexec : exec (.ldFVx x) s = fatal (.operandOutOfRange (s.readV x) s.fetchPc) s := withNibble_outside (by omega)
    rw [hexec]; exact stopsWith_fatal _ s

/-! ## Block stores and loads -/

theorem exec_ldBVx (x : Nibble) (s : State) : exec (.ldBVx x) s =
    guardRange s.i.toNat 3 s (.next (s.storeBytes s.i.toNat (bcdDigits (s.readV x)))) := rfl

theorem exec_ldMemVx (x : Nibble) (s : State) : exec (.ldMemVx x) s =
    guardRange s.i.toNat (x.val + 1) s (.next (s.storeBytes s.i.toNat (s.regsUpTo x))) := rfl

theorem exec_ldVxMem (x : Nibble) (s : State) : exec (.ldVxMem x) s =
    guardRange s.i.toNat (x.val + 1) s (.next (s.storeRegs 0 (s.loadBytes s.i.toNat (x.val + 1)))) := rfl

/-- An access that reaches past 0xFFF stops with the first such address (20 R58). -/
theorem stopsWith_guardRange {a n : Nat} {s : State} {rest : Result} (hn : 0 < n) (hout : 4096 < a + n) :
    StopsWith (.addressOutOfRange (max a 4096) s.fetchPc) s (guardRange a n s rest) := by
  rw [guardRange_outside hn hout]
  exact stopsWith_fatal _ s

/-- Settles O41. -/
theorem bcdStoresThreeDigits : Obligations.BcdStoresThreeDigits := by
  unfold Obligations.BcdStoresThreeDigits
  intro x s hwf
  refine ⟨fun hfit => ?_, fun hout => stopsWith_guardRange (by decide) (by omega)⟩
  have hdigit (k : Nat) (hk : k < 3) :
      (s.storeBytes s.i.toNat (bcdDigits (s.readV x))).readByte (s.i.toNat + k) = (bcdDigits (s.readV x))[k] :=
    readByte_storeBytes_inside s s.i.toNat (bcdDigits (s.readV x)) (by simp [bcdDigits, Config.memSize]; omega) hwf k hk
  have hhundreds := hdigit 0 (by decide)
  rw [Nat.add_zero] at hhundreds
  have hlt := (s.readV x).isLt
  refine ⟨_, (exec_ldBVx x s).trans (guardRange_inside (by omega)), ?_, ?_, ?_,
    memKeptOutside_storeBytes s s.i.toNat (bcdDigits (s.readV x)), onlyChanges_storeBytes s _ _⟩
  · rw [hhundreds]
    simp [bcdDigits]; omega
  · rw [hdigit 1 (by decide)]
    simp [bcdDigits]; omega
  · rw [hdigit 2 (by decide)]
    simp [bcdDigits]; omega

/-- Settles O42. -/
theorem blockStoreWritesRegisters : Obligations.BlockStoreWritesRegisters := by
  unfold Obligations.BlockStoreWritesRegisters
  intro x s hwf
  refine ⟨fun hfit => ?_, fun hout => stopsWith_guardRange (by omega) (by omega)⟩
  refine ⟨_, (exec_ldMemVx x s).trans (guardRange_inside (by omega)), fun r hr => ?_, ?_, onlyChanges_storeBytes s _ _⟩
  · have hk : r.val < x.val + 1 := Nat.lt_succ_of_le hr
    rw [readByte_storeBytes_inside s _ _ (by rw [length_regsUpTo, Config.memSize]; omega) hwf r.val (by simpa using hk),
      getElem_regsUpTo s x r.val hk]
  · have hkept := memKeptOutside_storeBytes s s.i.toNat (s.regsUpTo x)
    rwa [length_regsUpTo] at hkept

/-- Settles O43. -/
theorem blockLoadReadsRegisters : Obligations.BlockLoadReadsRegisters := by
  unfold Obligations.BlockLoadReadsRegisters
  intro x s
  refine ⟨fun hfit => ?_, fun hout => stopsWith_guardRange (by omega) (by omega)⟩
  refine ⟨_, (exec_ldVxMem x s).trans (guardRange_inside (by omega)), fun r hr => ?_, fun r hr => ?_,
    onlyChanges_storeRegs s 0 _⟩
  · have hk : r.val < x.val + 1 := Nat.lt_succ_of_le hr
    rw [readV_storeRegs, dif_pos (by simpa using hk)]
    exact getElem_loadBytes s _ _ r.val hk
  · have hk : x.val < r.val := hr
    rw [readV_storeRegs, dif_neg (by simp; omega)]

/-- What a block store that fits leaves: `pc` and `I` as they were, V0 to Vx in memory. -/
theorem of_exec_ldMemVx {x : Nibble} {s t : State} (hwf : Memory.wf s.params s.mem = true)
    (hfit : s.i.toNat + x.val ≤ 0xFFF) (h : exec (.ldMemVx x) s = .next t) :
    t.pc = s.pc ∧ t.i = s.i ∧ ∀ r : Nibble, r ≤ x → t.readByte (s.i.toNat + r.val) = s.readV r := by
  obtain ⟨t', ht', hbytes, -, hframe⟩ := (blockStoreWritesRegisters x s hwf).1 hfit
  obtain rfl := Host.Outcome.next.inj (h.symm.trans ht')
  exact ⟨hframe .pc (by simp), hframe .i (by simp), hbytes⟩

/-- Settles O44. Between the store and the load, memory and `I` stay, so the load reads what the store wrote. -/
theorem storeThenLoadRestoresRegisters : Obligations.StoreThenLoadRestoresRegisters := by
  unfold Obligations.StoreThenLoadRestoresRegisters
  intro x s t u hwf hfit hstore hbetween
  obtain ⟨-, hti, hbytes⟩ := of_exec_ldMemVx hwf hfit hstore
  have hui : u.i = s.i := Eq.trans (hbetween .i (by simp)) hti
  have hmem : ∀ a, u.readByte a = t.readByte a := hbetween .mem (by simp)
  obtain ⟨w, hload, hregs, hkept, -⟩ := (blockLoadReadsRegisters x u).1 (by rwa [hui])
  exact ⟨w, hload, fun r hr => by rw [hregs r hr, hui, hmem, hbytes r hr], hkept⟩

/-- Settles O45. -/
theorem storesReachTheNextFetch : Obligations.StoresReachTheNextFetch := by
  unfold Obligations.StoresReachTheNextFetch
  intro x r s t hwf hfit hr hpc hstore
  obtain ⟨htpc, -, hbytes⟩ := of_exec_ldMemVx hwf hfit hstore
  have hsucc : (r + 1).val = r.val + 1 := val_add_one_of_lt (by omega)
  have hhi : t.readByte (s.i.toNat + r.val) = s.readV r := hbytes r (Fin.le_def.mpr (by omega))
  have hlo : t.readByte (s.i.toNat + (r + 1).val) = s.readV (r + 1) := hbytes (r + 1) (Fin.le_def.mpr (by omega))
  rw [State.fetchWord, htpc, hpc, hhi, Nat.add_assoc, ← hsucc, hlo]

/-! ## Canonical memories -/

/-- The first cell of a canonical memory says what no unlisted address reads as. -/
theorem Memory.read_head_ne_resetByte {p : Params} {k : Nat} {b : Byte} {rest : List Host.Cell}
    (hwf : Memory.wf p ((k, b) :: rest) = true) : Memory.read p ((k, b) :: rest) k ≠ resetByte p k := by
  obtain ⟨-, hb, -, -⟩ := Memory.wf_cons.mp hwf
  rwa [Memory.read, if_pos rfl]

/-- Of two canonical memories that read alike, the second lists no first address above the first's. -/
theorem Memory.head_le_of_read_eq {p : Params} {k : Nat} {b : Byte} {rest m : List Host.Cell} {lo : Nat}
    (hwf : Memory.wf p ((k, b) :: rest) = true) (hwf' : Memory.wf p m = true) (habove : Memory.above lo m = true)
    (hread : ∀ a < 4096, Memory.read p ((k, b) :: rest) a = Memory.read p m a) : lo ≤ k := by
  by_contra hlt
  refine Memory.read_head_ne_resetByte hwf ?_
  rw [hread k (Memory.wf_cons.mp hwf).1]
  exact Memory.read_below hwf' habove (Nat.lt_of_not_le hlt)

/-- A canonical memory behind its first cell reads as the whole, but for the first cell's address. -/
theorem Memory.read_tail {p : Params} {k : Nat} {b : Byte} {rest : List Host.Cell}
    (hwf : Memory.wf p ((k, b) :: rest) = true) (a : Nat) :
    Memory.read p rest a = if k = a then resetByte p k else Memory.read p ((k, b) :: rest) a := by
  obtain ⟨-, -, habove, hwfrest⟩ := Memory.wf_cons.mp hwf
  split
  · next h => subst h; exact Memory.read_below hwfrest habove (Nat.lt_succ_self k)
  · next h => rw [Memory.read, if_neg h]

/-- Settles O46. By induction on the cells: the first cells have the same address, since neither memory lists an address
below the other's first, and so the same byte; behind them the memories read alike again. -/
theorem canonicalMemoriesThatReadAlikeAreEqual : Obligations.CanonicalMemoriesThatReadAlikeAreEqual := by
  unfold Obligations.CanonicalMemoriesThatReadAlikeAreEqual
  intro p m m' hwf hwf' hread
  induction m generalizing m' with
  | nil =>
    cases m' with
    | nil => rfl
    | cons c rest =>
      obtain ⟨k, b⟩ := c
      exact absurd (hread k (Memory.wf_cons.mp hwf').1).symm (Memory.read_head_ne_resetByte hwf')
  | cons c rest ih =>
    obtain ⟨k, b⟩ := c
    cases m' with
    | nil => exact absurd (hread k (Memory.wf_cons.mp hwf).1) (Memory.read_head_ne_resetByte hwf)
    | cons c' rest' =>
      obtain ⟨k', b'⟩ := c'
      have hread' : ∀ a < 4096, Memory.read p ((k', b') :: rest') a = Memory.read p ((k, b) :: rest) a :=
        fun a ha => (hread a ha).symm
      have hle : k' ≤ k := Memory.head_le_of_read_eq hwf hwf' (by simp [Memory.above]) hread
      have hge : k ≤ k' := Memory.head_le_of_read_eq hwf' hwf (by simp [Memory.above]) hread'
      obtain rfl : k = k' := Nat.le_antisymm hge hle
      obtain ⟨hk, -, -, hwfrest⟩ := Memory.wf_cons.mp hwf
      obtain ⟨-, -, -, hwfrest'⟩ := Memory.wf_cons.mp hwf'
      have hbyte : b = b' := by simpa [Memory.read] using hread k hk
      have hrest : rest = rest' := ih rest' hwfrest hwfrest' fun a ha => by
        rw [Memory.read_tail hwf, Memory.read_tail hwf', hread a ha]
      rw [hbyte, hrest]

/-! ## Reset and load -/

/-- Inside the font an unlisted address reads as the font's byte (20 R55). -/
theorem resetByte_font (p : Params) (k : Fin 80) : resetByte p (p.fontBase.val + k.val) = p.fontData[k] := by
  simp [resetByte]

/-- Outside the font an unlisted address reads as zero (10 R44). -/
theorem resetByte_outside (p : Params) {a : Nat} (h : a < p.fontBase.val ∨ p.fontBase.val + 80 ≤ a) :
    resetByte p a = 0#8 := by
  unfold resetByte
  split
  · rw [Vector.getElem?_eq_none (by omega)]; rfl
  · rfl

/-- Settles O53. -/
theorem resetLeavesTheListedValues : Obligations.ResetLeavesTheListedValues := by
  unfold Obligations.ResetLeavesTheListedValues
  refine ⟨fun s => ⟨fun r => Vector.getElem_replicate r.isLt, rfl, rfl, rfl, fun j => Vector.getElem_replicate j.isLt, rfl,
    rfl, getElem_resetDisp, fun k => Vector.getElem_replicate k.isLt, rfl, rfl, resetByte_font s.params,
    fun a => resetByte_outside s.params⟩, rfl, rfl, by decide, by decide⟩

/-- Settles O54. By whether the program fits. -/
theorem loadWritesTheProgramOrRefuses : Obligations.LoadWritesTheProgramOrRefuses := by
  unfold Obligations.LoadWritesTheProgramOrRefuses
  intro bytes s hwf
  refine ⟨fun hfit => ?_, fun hbig => ?_, rfl⟩
  · obtain ⟨-, hload, hresp⟩ | ⟨hbig, -⟩ := loadTx_cases bytes s
    · refine ⟨s.storeBytes 0x200 bytes, by simp [transact, hload, hresp], fun k hk => ?_,
        memKeptOutside_storeBytes s 0x200 bytes, onlyChanges_storeBytes s _ _⟩
      exact readByte_storeBytes_inside s 0x200 bytes (by rw [Config.memSize]; omega) hwf k hk
    · omega
  · obtain ⟨hfit, -⟩ | ⟨-, hload, hresp⟩ := loadTx_cases bytes s
    · omega
    · have hsame : transact (.load bytes) ⟨s, false⟩ = .next (⟨s, false⟩, .programTooLarge) := by
        simp [transact, hload, hresp]
      exact ⟨hsame, fun txs => by rw [transactAll, hsame]⟩

end Sys2Proof.Machine

namespace Sys2Proof.Machine

/-! ## Drawing a sprite

A canvas drawn on a set of cells has exactly those cells inverted, and records a hit where one of them was lit. Drawing on
disjoint sets one after the other is drawing on their union; the bits of a sprite fall on distinct cells, since it has at
most 8 columns and 15 rows and the display 64 and 32 (44 R191). -/

/-- From canvas `c` to `d` exactly the cells of `cells` are inverted, and a hit is recorded where one of them was lit. -/
def Draws (cells : Fin 2048 → Prop) (c d : Canvas) : Prop :=
  (∀ p : Fin 2048, d.1[p] = true ↔ ¬ (c.1[p] = true ↔ cells p)) ∧
  (d.2 = true ↔ c.2 = true ∨ ∃ p : Fin 2048, cells p ∧ c.1[p] = true)

/-- Drawing on no cell changes nothing. -/
theorem draws_nothing {cells : Fin 2048 → Prop} (h : ∀ p, ¬ cells p) (c : Canvas) : Draws cells c c := by
  simp [Draws, h]

/-- Drawing on one set of cells and then on a disjoint one is drawing on both. -/
theorem Draws.trans {first second both : Fin 2048 → Prop} {c d e : Canvas} (h₁ : Draws first c d) (h₂ : Draws second d e)
    (hdisjoint : ∀ p, first p → ¬ second p) (hboth : ∀ p, both p ↔ first p ∨ second p) : Draws both c e := by
  obtain ⟨hcells₁, hhit₁⟩ := h₁
  obtain ⟨hcells₂, hhit₂⟩ := h₂
  have hlit (p : Fin 2048) (hp : second p) : d.1[p] = true ↔ c.1[p] = true := by
    have hfirst : ¬ first p := fun hf => hdisjoint p hf hp
    rw [hcells₁]; simp [hfirst]
  refine ⟨fun p => ?_, ?_⟩
  · rw [hcells₂, hcells₁, hboth]
    by_cases hfirst : first p
    · simp [hfirst, hdisjoint p hfirst]
    · simp [hfirst]
  · calc e.2 = true ↔ (c.2 = true ∨ ∃ p, first p ∧ c.1[p] = true) ∨ ∃ p, second p ∧ d.1[p] = true := by rw [hhit₂, hhit₁]
      _ ↔ c.2 = true ∨ (∃ p, first p ∧ c.1[p] = true) ∨ ∃ p, second p ∧ c.1[p] = true := by
        rw [or_assoc, exists_congr fun p => and_congr_right (hlit p)]
      _ ↔ c.2 = true ∨ ∃ p, both p ∧ c.1[p] = true := by simp only [hboth, or_and_right, exists_or]

/-- One sprite bit draws on its own cell where it is set. -/
theorem draws_drawBit (bit : Bool) (cx cy : Nat) (c : Canvas) :
    Draws (fun p => bit = true ∧ p = cellOf cx cy) c (drawBit bit cx cy c) := by
  cases bit with
  | false => exact draws_nothing (by simp) c
  | true =>
    refine ⟨fun p => ?_, by simp [drawBit]⟩
    by_cases hp : p = cellOf cx cy
    · subst hp; simp [drawBit]
    · simp [drawBit, hp, Vector.getElem_set_ne, Fin.val_ne_of_ne (Ne.symm hp)]

theorem cellOf_eq_cellOf {a b a' b' : Nat} : cellOf a b = cellOf a' b' ↔ a % 64 = a' % 64 ∧ b % 32 = b' % 32 := by
  simp only [cellOf, Fin.mk.injEq]
  omega

/-- The cell is under one of the `k` leftmost columns of a sprite byte. -/
def ColumnsCover (b : Byte) (x0 cy k : Nat) (p : Fin 2048) : Prop :=
  ∃ j < k, spriteBit b j = true ∧ p = cellOf (x0 + j) cy

/-- The columns of a byte fall on distinct cells of a row. -/
theorem draws_drawColumns (b : Byte) (x0 cy : Nat) {k : Nat} (hk : k ≤ 64) (c : Canvas) :
    Draws (ColumnsCover b x0 cy k) c (drawColumns b x0 cy k c) := by
  induction k with
  | zero => exact draws_nothing (by simp [ColumnsCover]) c
  | succ k ih =>
    refine (ih (by omega)).trans (draws_drawBit (spriteBit b k) (x0 + k) cy _) ?_ fun p => ?_
    · rintro p ⟨j, hj, -, rfl⟩ ⟨-, hsame⟩
      have := (cellOf_eq_cellOf.mp hsame).1
      omega
    · simp only [ColumnsCover, Nat.exists_lt_succ_right]

/-- The cell is under one of the sprite's rows from row `cy` down. -/
def RowsCover (x0 cy : Nat) (bs : List Byte) (p : Fin 2048) : Prop :=
  ∃ r b, bs[r]? = some b ∧ ColumnsCover b x0 (cy + r) 8 p

theorem rowsCover_cons {x0 cy : Nat} {b : Byte} {bs : List Byte} {p : Fin 2048} :
    RowsCover x0 cy (b :: bs) p ↔ ColumnsCover b x0 cy 8 p ∨ RowsCover x0 (cy + 1) bs p := by
  constructor
  · rintro ⟨r, b', hget, hcover⟩
    cases r with
    | zero => exact .inl (by simpa [Option.some.inj hget] using hcover)
    | succ r => exact .inr ⟨r, b', hget, by rwa [Nat.add_assoc, Nat.add_comm 1]⟩
  · rintro (hcover | ⟨r, b', hget, hcover⟩)
    · exact ⟨0, b, rfl, hcover⟩
    · exact ⟨r + 1, b', hget, by rwa [Nat.add_comm r, ← Nat.add_assoc]⟩

/-- The rows of a sprite fall on distinct cells. -/
theorem draws_drawRows (x0 cy : Nat) {bs : List Byte} (hlen : bs.length ≤ 32) (c : Canvas) :
    Draws (RowsCover x0 cy bs) c (drawRows x0 cy bs c) := by
  induction bs generalizing cy c with
  | nil => exact draws_nothing (by simp [RowsCover]) c
  | cons b bs ih =>
    rw [List.length_cons] at hlen
    refine (draws_drawColumns b x0 cy (by decide) c).trans (ih (cy + 1) (by omega) _) ?_ fun p => rowsCover_cons
    rintro p ⟨j, -, -, rfl⟩ ⟨r, b', hget, j', -, -, hsame⟩
    have hrow := (cellOf_eq_cellOf.mp hsame).2
    have hr : r < bs.length := (List.getElem?_eq_some_iff.mp hget).1
    omega

/-! ### The display as pixels -/

/-- Every cell is a pixel (10 R37). -/
theorem exists_eq_cellOf (p : Fin 2048) : ∃ (cx : Fin 64) (cy : Fin 32), p = cellOf cx.val cy.val := by
  refine ⟨⟨p.val % 64, by omega⟩, ⟨p.val / 64, by omega⟩, Fin.ext ?_⟩
  simp only [cellOf]
  omega

theorem pixelAt_eq (s : State) (cx : Fin 64) (cy : Fin 32) : s.pixelAt cx cy = s.disp[cellOf cx.val cy.val] := by
  simp [State.pixelAt, cellOf, Nat.mod_eq_of_lt]

/-- The sprite of a DRW covers the pixel exactly where its rows cover the pixel's cell. -/
theorem rowsCover_iff_spriteCovers (x y n : Nibble) (s : State) (cx : Fin 64) (cy : Fin 32) :
    RowsCover (s.readV x).toNat (s.readV y).toNat (s.loadBytes s.i.toNat n.val) (cellOf cx.val cy.val) ↔
      SpriteCovers x y n s cx cy := by
  have hbyte (r : Nat) (b : Byte) : (s.loadBytes s.i.toNat n.val)[r]? = some b ↔
      r < n.val ∧ s.readByte (s.i.toNat + r) = b := by
    rw [List.getElem?_eq_some_iff]
    constructor
    · rintro ⟨hr, rfl⟩
      rw [length_loadBytes] at hr
      exact ⟨hr, (getElem_loadBytes s _ _ r hr).symm⟩
    · rintro ⟨hr, rfl⟩
      exact ⟨by rwa [length_loadBytes], getElem_loadBytes s _ _ r hr⟩
  have hcell (j r : Nat) : cellOf cx.val cy.val = cellOf ((s.readV x).toNat + j) ((s.readV y).toNat + r) ↔
      cx.val = ((s.readV x).toNat + j) % 64 ∧ cy.val = ((s.readV y).toNat + r) % 32 := by
    rw [cellOf_eq_cellOf, Nat.mod_eq_of_lt cx.isLt, Nat.mod_eq_of_lt cy.isLt]
  constructor
  · rintro ⟨r, b, hget, j, hj, hbit, hp⟩
    obtain ⟨hr, rfl⟩ := (hbyte r b).mp hget
    exact ⟨r, j, hr, hj, hbit, (hcell j r).mp hp⟩
  · rintro ⟨r, j, hr, hj, hbit, hp⟩
    exact ⟨r, _, (hbyte r _).mpr ⟨hr, rfl⟩, j, hj, hbit, (hcell j r).mpr hp⟩

/-- The state after a DRW whose sprite is in memory. -/
def State.drawn (x y n : Nibble) (s : State) : State :=
  (s.writeDisp (drawSprite x y n s).1).writeV vf (flagByte (drawSprite x y n s).2)

theorem exec_drw (x y n : Nibble) (s : State) :
    exec (.drw x y n) s = guardRange s.i.toNat n.val s (.next (s.drawn x y n)) := rfl

theorem draws_drawSprite (x y n : Nibble) (s : State) :
    Draws (RowsCover (s.readV x).toNat (s.readV y).toNat (s.loadBytes s.i.toNat n.val)) (s.disp, false)
      (drawSprite x y n s) :=
  draws_drawRows _ _ (by rw [length_loadBytes]; omega) _

theorem pixelAt_drawn (x y n : Nibble) (s : State) (cx : Fin 64) (cy : Fin 32) :
    (s.drawn x y n).pixelAt cx cy = true ↔ ¬ (s.pixelAt cx cy = true ↔ SpriteCovers x y n s cx cy) := by
  rw [pixelAt_eq, pixelAt_eq, ← rowsCover_iff_spriteCovers]
  exact (draws_drawSprite x y n s).1 _

theorem drawSprite_hit (x y n : Nibble) (s : State) :
    (drawSprite x y n s).2 = true ↔ ∃ cx cy, SpriteCovers x y n s cx cy ∧ s.pixelAt cx cy = true := by
  simp only [pixelAt_eq, ← rowsCover_iff_spriteCovers]
  rw [(draws_drawSprite x y n s).2]
  constructor
  · rintro (hfalse | ⟨p, hp⟩)
    · cases hfalse
    · obtain ⟨cx, cy, rfl⟩ := exists_eq_cellOf p
      exact ⟨cx, cy, hp⟩
  · rintro ⟨cx, cy, h⟩
    exact .inr ⟨_, h⟩

/-- Settles O48. The sprite is drawn bit by bit on distinct cells, so each covered pixel is inverted once and a hit is a
pixel that was lit before. -/
theorem drawXorsTheWrappedSprite : Obligations.DrawXorsTheWrappedSprite := by
  unfold Obligations.DrawXorsTheWrappedSprite
  intro x y n s
  refine ⟨fun hfit => ?_, fun hn hout => stopsWith_guardRange hn hout⟩
  have hflag : (s.drawn x y n).readV vf = flagByte (drawSprite x y n s).2 := readV_writeV_same _ vf _
  refine ⟨s.drawn x y n, (exec_drw x y n s).trans (guardRange_inside hfit), pixelAt_drawn x y n s, ?_, ?_,
    fun r hr => readV_writeV_ne _ _ hr,
    ((onlyChanges_writeDisp s _).append (onlyChanges_writeV _ vf _)).mono (by simp)⟩
  · rw [hflag]
    cases (drawSprite x y n s).2
    · exact .inr rfl
    · exact .inl rfl
  · rw [hflag, ← drawSprite_hit]
    cases (drawSprite x y n s).2 <;> decide

/-- A sprite covers the same pixels in a state with the same coordinates, `I` and memory. -/
theorem spriteCovers_congr {x y n : Nibble} {s t : State} (hx : t.readV x = s.readV x) (hy : t.readV y = s.readV y)
    (hi : t.i = s.i) (hmem : ∀ a, t.readByte a = s.readByte a) (cx : Fin 64) (cy : Fin 32) :
    SpriteCovers x y n t cx cy ↔ SpriteCovers x y n s cx cy := by
  simp only [SpriteCovers, hx, hy, hi, hmem]

/-- Settles O49. The second draw covers the same pixels, and inverting a pixel twice restores it. -/
theorem drawingTwiceRestoresTheDisplay : Obligations.DrawingTwiceRestoresTheDisplay := by
  unfold Obligations.DrawingTwiceRestoresTheDisplay
  intro x y n s hx hy hfit
  obtain ⟨t, ht, hpixel, -, -, hregs, hframe⟩ := (drawXorsTheWrappedSprite x y n s).1 hfit
  have hi : t.i = s.i := hframe .i (by simp)
  obtain ⟨u, hu, hpixel', -, -, hregs', hframe'⟩ := (drawXorsTheWrappedSprite x y n t).1 (by rwa [hi])
  have hcovers := spriteCovers_congr (n := n) (hregs x hx) (hregs y hy) hi (hframe .mem (by simp))
  have hdisp (p : Fin 2048) : u.disp[p] = s.disp[p] := by
    obtain ⟨cx, cy, rfl⟩ := exists_eq_cellOf p
    rw [← pixelAt_eq, ← pixelAt_eq, Bool.eq_iff_iff, hpixel', hpixel, hcovers]
    by_cases hcover : SpriteCovers x y n s cx cy <;> simp [hcover]
  refine ⟨t, ht, u, hu, fun r hr => (hregs' r hr).trans (hregs r hr), fun p hp => ?_⟩
  by_cases hpart : p = .disp
  · rw [hpart]; exact hdisp
  · exact (hframe.trans hframe') p (by simp_all)

end Sys2Proof.Machine
